-- ==== Sys2Proof/Word.lean ====
section
/-! DEFINITION. Bytes and register words: the two bit-vector types of the machine. -/

namespace Sys2Proof

/-- One memory cell, one opcode or operand byte: "an unsigned value in [0,255]" (R30, R14). -/
abbrev Byte := BitVec 8

/-- A register, the program counter or an ALU result: an unsigned value of `w` bits, where `w` is
the parameter `W` of the block (R7, R15, R20). -/
abbrev Word (w : Nat) := BitVec w

end Sys2Proof
end

