-- ==== Sys2Proof/Config.lean ====
section
/-! DEFINITION. What an implementation fixes (the register width `W`, R7), the sizes the spec itself
fixes (R8), and the free values of the model. -/

namespace Sys2Proof

/-- The one parameter of the block, the register width `W` (R7). The spec leaves it open under the
constraint `W >= 16`, so the parameter is held as the number of bits above 16: every value is legal.
DESIGN CHOICE (log entry 1): the parameter stands in `State` and no step changes it, so a statement
about every state is a statement about every `W >= 16`. -/
structure Config where
  /-- How many bits the registers have beyond the 16 that R7 guarantees. -/
  headroom : Nat
deriving DecidableEq, Repr

/-- The register width `W` (R7): at least 16. -/
abbrev Config.W (c : Config) : Nat := 16 + c.headroom

/-- The reference value `W = 16` that R7 names and that 95_test_vectors.md uses. -/
def Config.reference : Config := ⟨0⟩

/-- Number of memory cells (R8, R30): addresses are 0 to 255. -/
abbrev Config.memoryCells : Nat := 256

/-- The register the stack instructions use implicitly: `R7`, alias `SP` (R8, R17). -/
abbrev Config.spIndex : Fin 8 := 7

/-- The "empty stack" address, the reset value of `SP` (R8, R19). -/
abbrev Config.emptyStack : Nat := 0xF4

/-- FREE VALUE (log entry 3). What `ir`, `opA` or `opB` holds after a cycle that faulted: R68 says they
"may hold the bytes read so far; they are not part of the fault's observable result". The argument is
the draw counter of `State`; nothing in Lean can evaluate the result. -/
opaque Config.latchAfterFault : Nat → Byte

end Sys2Proof
end

