-- ==== Sys2Proof/Machine/State.lean ====
section
/-! DEFINITION. The state of the block and of the memory it reaches (10_state.md, R15 to R29), the
faults the spec records in it (R91, R99), and the state after reset (R107). Plain data throughout. -/

namespace Sys2Proof.Machine

/-- The two spaces whose bounds are checked (R93, R94). -/
inductive Space where
  | memory
  | register
deriving DecidableEq, Repr

/-- The four instructions that raise `StackFault` (R95). -/
inductive StackOp where
  | push
  | pop
  | call
  | ret
deriving DecidableEq, Repr

/-- The fault causes of R91 with the fields each records. They are the SPEC's faults, held in the engine
state `Faulted(f)`; they are not the model's `Fault` below. -/
inductive FaultCause where
  /-- Raised by dispatch (R92): the byte fetched and the address it was fetched from. -/
  | unknownOpcode (byte : Byte) (addr : Nat)
  /-- Raised by the fetch and the memory primitives (R93) or by a handler with a register operand
  (R94): the offending address or register index. -/
  | addressOutOfRange (space : Space) (index : Nat)
  /-- Raised by PUSH, POP, CALL, RET (R95): the instruction and the value of `SP` before it. -/
  | stackFault (op : StackOp) (sp : Nat)
  /-- Raised by `MemWrite` of a value above 255 (R96): the value. -/
  | valueOutOfRange (value : Nat)
  /-- Raised by the ALU for an operation that is not ADD, MUL or CMP (R97); unreachable. -/
  | unsupportedALUOperation
deriving DecidableEq, Repr

/-- The fault record `f` of `Faulted(f)` (R99): the address of the opcode byte of the instruction whose
cycle faulted, and the cause with its own fields. The code and the name of R91 are functions of the
cause (`FaultCause.code`, `FaultCause.name`). -/
structure FaultRecord where
  pc : Nat
  cause : FaultCause
deriving DecidableEq, Repr

/-- The engine state `run` (R27, R61). -/
inductive RunState where
  | running
  | halted
  | faulted (f : FaultRecord)
deriving DecidableEq, Repr

/-- Memory: the listed cells in strictly rising address order, none of them equal to `unlistedByte`
(`Memory.wf` states the form). The array has 256 cells (R30). -/
abbrev Memory := List Host.Cell

/-- What an address that memory does not list reads as: "every other cell is 0" (R45; log entry 8). -/
def unlistedByte : Byte := 0

/-- Everything the spec gives the block (the table of 10_state.md section 5), the external memory
(R6), the parameter `W` (R7) and the model's own draw counter. R29: "There is no other
architectural state". -/
structure State where
  /-- The parameter `W` (R7); no step changes it (log entry 1). -/
  cfg : Config
  /-- The register file `R0` to `R7`; `R7` is the stack pointer (R15, R17). -/
  x : Vector (Word cfg.W) 8
  /-- The program counter (R20). -/
  pc : Word cfg.W
  /-- The flags register: E = bit 0, G = bit 1, L = bit 2 (R22). -/
  fl : BitVec 8
  /-- The instruction register, the just-fetched opcode byte (R25). -/
  ir : Byte
  /-- The decoded operand byte at `pc+1` (R26). -/
  opA : Byte
  /-- The decoded operand byte at `pc+2` (R26). -/
  opB : Byte
  /-- The engine state (R27). -/
  run : RunState
  /-- The output sequence, oldest value first (R28). -/
  out : List (Word cfg.W)
  /-- The external memory (R30). -/
  mem : Memory
  /-- THE MODEL'S OWN FIELD, not the spec's: how many free values have been drawn (log entry 3). -/
  draws : Nat
deriving DecidableEq, Repr

/-- The host's "the machine stops with a fault". No step of this model answers one (safe: nothing is
stopped that the spec lets go on): the spec gives every fault an entry, the terminal engine state
`Faulted(f)` (R100), which is a NEXT state (log entry 5). -/
inductive Fault
deriving DecidableEq, Repr

/-- The host's "no meaning for the instruction". -/
inductive Refusal where
  /-- Raised only by an arm of `exec` whose instruction has no meaning yet (none at present); safe: the
  model stops where the hardware goes on. -/
  | notModelled (mnemonic : String)
deriving DecidableEq, Repr

/-- The block of any width right after reset, before the loader has placed an image (R107): `R0` to `R6`
are 0 and `SP` is 0xF4 (R19), `pc` is 0 (R21), `fl` is 0 (R24), the engine runs (R27), nothing has
been emitted (R28) and every memory cell is 0 (R45). DESIGN CHOICE (log entry 2): `ir`, `opA` and
`opB`, unspecified by R25 and R26, are 0. DESIGN CHOICE (log entry 3): the draw counter starts at 0. -/
def State.resetOf (cfg : Config) : State where
  cfg := cfg
  x := #v[0, 0, 0, 0, 0, 0, 0, BitVec.ofNat cfg.W Config.emptyStack]
  pc := 0
  fl := 0
  ir := 0
  opA := 0
  opB := 0
  run := .running
  out := []
  mem := []
  draws := 0

/-- The machine right after reset, at the reference width `W = 16` (R7, R107; log entry 1). -/
def State.reset : State := State.resetOf Config.reference

end Sys2Proof.Machine
end

