-- ==== Sys2Proof/Machine/Memory.lean ====
section
/-! DEFINITION. The memory array (R30): reading and writing one cell, the canonical form of the list
that holds it, and the array a program image fills (R45). Range checks stand in Ops.lean. -/

namespace Sys2Proof.Machine

/-- The byte a memory holds at an address; an address it does not list reads as `unlistedByte`. -/
def Memory.read : Memory → Nat → Byte
  | [], _ => unlistedByte
  | (b, u) :: m, a => if b = a then u else Memory.read m a

/-- Put a cell in front of a memory, unless it holds what an unlisted address reads as. -/
def Memory.cons (a : Nat) (v : Byte) (m : Memory) : Memory :=
  if v = unlistedByte then m else (a, v) :: m

/-- Write one cell, keeping the canonical form: "The write changes exactly that one cell" (R32). -/
def Memory.write : Memory → Nat → Byte → Memory
  | [], a, v => Memory.cons a v []
  | (b, u) :: m, a, v =>
    if a < b then Memory.cons a v ((b, u) :: m)
    else if a = b then Memory.cons a v m
    else (b, u) :: Memory.write m a v

/-- The listed addresses rise strictly from `lo`, lie in the 256 cells, and none reads as unlisted. -/
def Memory.wfFrom : Nat → Memory → Bool
  | _, [] => true
  | lo, (a, v) :: m =>
    decide (lo ≤ a) && decide (a < Config.memoryCells) && decide (v ≠ unlistedByte) &&
      Memory.wfFrom (a + 1) m

/-- The canonical form of memory. -/
def Memory.wf (m : Memory) : Bool := Memory.wfFrom 0 m

/-- The memory that holds the bytes at `a`, `a+1`, … and nothing else. -/
def Memory.ofBytesFrom : Nat → List Byte → Memory
  | _, [] => []
  | a, b :: bs => Memory.cons a b (Memory.ofBytesFrom (a + 1) bs)

/-- Memory at the start of a run: "bytes `b[0]` to `b[n-1]` of the program image at addresses 0 to
`n-1`; every other cell is 0" (R45). An image has at most 256 bytes (R47): the rest is cut off here,
and the loader rejects such an image before it comes to this. -/
def Memory.ofImage (image : List Byte) : Memory :=
  Memory.ofBytesFrom 0 (image.take Config.memoryCells)

end Sys2Proof.Machine
end

