-- ==== Sys2Proof/Machine/Ops.lean ====
section
/-! DEFINITION. The named operations every handler is written in: the pseudocode primitives of R12 on
registers, `pc`, `fl`, memory and the output port; the stack pointer checks of R85; taking a fault
(R68, R99, R100). Values pass between them as unbounded naturals, as R11 says; a register or `pc` write
keeps the low `W` bits. -/

namespace Sys2Proof.Machine

/-! Reading the state. -/

/-- `x[i]`, as an unsigned number (R12). -/
def State.regVal (s : State) (i : Fin 8) : Nat := (s.x.get i).toNat

/-- The stack pointer `x[7]`, as an unsigned number (R17). -/
def State.spVal (s : State) : Nat := s.regVal Config.spIndex

/-- `pc`, as an unsigned number (R20). -/
def State.pcVal (s : State) : Nat := s.pc.toNat

/-- The byte memory holds at an address (no range check). -/
def State.byteAt (s : State) (a : Nat) : Byte := Memory.read s.mem a

/-- The output sequence as unsigned numbers, oldest first (R28). -/
def State.outVals (s : State) : List Nat := s.out.map BitVec.toNat

/-! Writing the state. -/

/-- `x[i] <- v mod 2^W` (R12, R77). -/
def State.setReg (s : State) (i : Fin 8) (v : Nat) : State :=
  { s with x := s.x.set i (BitVec.ofNat s.cfg.W v) }

/-- `x[7] <- v` (R17). -/
def State.setSp (s : State) (v : Nat) : State := s.setReg Config.spIndex v

/-- `pc <- target` (R12). -/
def State.setPc (s : State) (target : Nat) : State :=
  { s with pc := BitVec.ofNat s.cfg.W target }

/-- `pc <- pc + n`: a handler that does not alter control flow advances by its length (R66). -/
def State.advance (s : State) (n : Nat) : State := s.setPc (s.pcVal + n)

/-- `fl <- v` (R12). -/
def State.setFl (s : State) (v : BitVec 8) : State := { s with fl := v }

/-- `M[a] <- v`, that one cell and nothing else (R32). -/
def State.setByte (s : State) (a : Nat) (v : Byte) : State := { s with mem := Memory.write s.mem a v }

/-- `emit(v)`: `out <- out ++ [v]` (R72). -/
def State.emit (s : State) (v : Nat) : State :=
  { s with out := s.out ++ [BitVec.ofNat s.cfg.W v] }

/-- `run <- Halted` (R88). -/
def State.halt (s : State) : State := { s with run := .halted }

/-- The three bytes of the slot enter `ir`, `opA` and `opB` (R63, R64). -/
def State.latch (s : State) (ir opA opB : Byte) : State := { s with ir := ir, opA := opA, opB := opB }

/-! Memory primitives. -/

/-- `MemRead(addr, 1)` (R31). -/
def memRead (s : State) (addr : Nat) : Except FaultCause Byte :=
  if addr > 255 then .error (.addressOutOfRange .memory addr) else .ok (s.byteAt addr)

/-- `MemWrite(addr, 1, v)` (R32): the address is checked first, then the value. -/
def memWrite (s : State) (addr v : Nat) : Except FaultCause State :=
  if addr > 255 then .error (.addressOutOfRange .memory addr)
  else if v > 255 then .error (.valueOutOfRange v)
  else .ok (s.setByte addr (BitVec.ofNat 8 v))

/-! Stack pointer checks (R85): "exactly when the address it would access, or the value it would leave
in `SP`, is outside 0 to 255"; the fault records `SP` before the instruction. -/

/-- The decremented stack pointer of PUSH and CALL, the address they store to (R83, R86); the
subtraction is exact, so that `SP = 0` gives -1. -/
def pushSlot (op : StackOp) (s : State) : Except FaultCause Nat :=
  let sp1 : Int := (s.spVal : Int) - 1
  if sp1 < 0 ∨ sp1 > 255 then .error (.stackFault op s.spVal) else .ok sp1.toNat

/-- The stack pointer of POP and RET, the address they read (R84, R87). -/
def popSlot (op : StackOp) (s : State) : Except FaultCause Nat :=
  if s.spVal > 255 then .error (.stackFault op s.spVal) else .ok s.spVal

/-- The value POP or RET leaves in `SP` (R84, R87). -/
def checkSp (op : StackOp) (s : State) (sp1 : Nat) : Except FaultCause Nat :=
  if sp1 > 255 then .error (.stackFault op s.spVal) else .ok sp1

/-! Taking a fault. -/

/-- The fault code of R91. -/
def FaultCause.code : FaultCause → Nat
  | .unknownOpcode _ _ => 1
  | .addressOutOfRange .memory _ => 2
  | .addressOutOfRange .register _ => 3
  | .stackFault _ _ => 4
  | .valueOutOfRange _ => 5
  | .unsupportedALUOperation => 6

/-- The fault name of R91. -/
def FaultCause.name : FaultCause → String
  | .unknownOpcode _ _ => "UnknownOpcode"
  | .addressOutOfRange _ _ => "AddressOutOfRange"
  | .stackFault _ _ => "StackFault"
  | .valueOutOfRange _ => "ValueOutOfRange"
  | .unsupportedALUOperation => "UnsupportedALUOperation"

/-- "the fault code and name of rule R91" of a fault record (R99). -/
def FaultRecord.code (f : FaultRecord) : Nat := f.cause.code

/-- The name of R91 of a fault record (R99). -/
def FaultRecord.name (f : FaultRecord) : String := f.cause.name

/-- Fault entry (R68, R99, R100), the ONE operation that takes a fault: "sets `run <- Faulted(f)` and
changes nothing else"; the record names the address of the faulting instruction, which `pc` still
holds (R20). What `ir`, `opA` and `opB` hold afterwards is free (log entry 3). There is no handler and
no return from a fault (R101). -/
def State.takeFault (s : State) (c : FaultCause) : State :=
  { s with
    run := .faulted { pc := s.pcVal, cause := c }
    ir := Config.latchAfterFault s.draws
    opA := Config.latchAfterFault (s.draws + 1)
    opB := Config.latchAfterFault (s.draws + 2)
    draws := s.draws + 3 }

/-- The end of a handler: all its writes, or none of them and the fault (R12, R68: "the cycle is
atomic"). `s` is the state before the handler. -/
def conclude (s : State) : Except FaultCause State → Host.Outcome State Fault Refusal
  | .ok t => .next t
  | .error c => .next (s.takeFault c)

end Sys2Proof.Machine
end

