-- ==== Sys2Proof/Machine/Operands.lean ====
section
/-! DEFINITION. The operand forms: a register index (R50), the two register indices of format RR in
checking order (R69), and LDI's literal (R51). -/

namespace Sys2Proof.Machine

/-- A register operand is the whole operand byte as an index; above 7 it raises
`AddressOutOfRange(register, byte)` (R50). The index is not reduced to its low 3 bits. -/
def regOperand (b : Byte) : Except FaultCause (Fin 8) :=
  if h : b.toNat < 8 then .ok ⟨b.toNat, h⟩ else .error (.addressOutOfRange .register b.toNat)

/-- Two register operands, `opA` checked first (R69). -/
def regOperands (a b : Byte) : Except FaultCause (Fin 8 × Fin 8) := do
  let i ← regOperand a
  let j ← regOperand b
  pure (i, j)

/-- LDI's literal: `zext_W(opB)`, range 0 to 255 (R51); not sign-extended, scaled or shifted. -/
def literal (b : Byte) : Nat := b.toNat

/-- The operand byte that names a register. -/
def regByte (i : Fin 8) : Byte := BitVec.ofNat 8 i.val

end Sys2Proof.Machine
end

