-- ==== Sys2Proof/Machine/Flags.lean ====
section
/-! DEFINITION. The flags register `fl` (R22) and the one computation that writes it, CMP's (R78). -/

namespace Sys2Proof.Machine

/-- Only E set. -/
def flagE : BitVec 8 := 0b001
/-- Only G set. -/
def flagG : BitVec 8 := 0b010
/-- Only L set. -/
def flagL : BitVec 8 := 0b100

/-- E, Equal: `fl[0]` (R22). -/
def State.E (s : State) : Bool := s.fl.getLsbD 0
/-- G, Greater: `fl[1]` (R22). -/
def State.G (s : State) : Bool := s.fl.getLsbD 1
/-- L, Less: `fl[2]` (R22). -/
def State.L (s : State) : Bool := s.fl.getLsbD 2

/-- The legal values of `fl`: no comparison yet, E, G, L (R22). -/
def legalFlags (f : BitVec 8) : Bool := f == 0 || f == flagE || f == flagG || f == flagL

/-- `alu(CMP, a, b)`: the whole register, exactly one bit set, by the UNSIGNED order of the two words
(R78, R79, R80). -/
def compareFlags {w : Nat} (a b : Word w) : BitVec 8 :=
  if a.toNat = b.toNat then flagE else if a.toNat > b.toNat then flagG else flagL

end Sys2Proof.Machine
end

