-- ==== Sys2Proof/Machine/Alu.lean ====
section
/-! DEFINITION. The integer ALU (R74) and its instructions MUL, ADD and CMP (42_alu.md). -/

namespace Sys2Proof.Machine

/-- The operations one may ask of the ALU (R74): its three, and any other, which it rejects. -/
inductive AluOp where
  | add
  | mul
  | cmp
  /-- "Any other operation name" (R74); no instruction asks for one. -/
  | other (name : String)
deriving DecidableEq, Repr

/-- What the ALU answers: a register value or a flags value (R74, "EffectOnRegisterOrFlags"). -/
inductive AluEffect (w : Nat) where
  | register (v : Word w)
  | flags (v : BitVec 8)
deriving DecidableEq, Repr

/-- The ALU: pure functions of two words (R74). ADD and MUL keep the exact result modulo `2^W` (R77);
an operation it does not have "must never silently no-op" (R97). -/
def alu {w : Nat} : AluOp → Word w → Word w → Except FaultCause (AluEffect w)
  | .add, a, b => .ok (.register (BitVec.ofNat w (a.toNat + b.toNat)))
  | .mul, a, b => .ok (.register (BitVec.ofNat w (a.toNat * b.toNat)))
  | .cmp, a, b => .ok (.flags (compareFlags a b))
  | .other _, _, _ => .error .unsupportedALUOperation

/-- Write what the ALU answers: into the first operand's register (R76), or into `fl`. -/
def State.applyEffect (s : State) (d : Fin 8) : AluEffect s.cfg.W → State
  | .register v => s.setReg d v.toNat
  | .flags v => s.setFl v

/-- The shared body of the ALU instructions: check `opA`, then `opB`; read both registers once, before
the write (R81); write the effect; advance by 3. -/
def aluInstr (op : AluOp) (a b : Byte) (s : State) : Except FaultCause State := do
  let (i, j) ← regOperands a b
  let e ← alu op (s.x.get i) (s.x.get j)
  pure ((s.applyEffect i e).advance 3)

/-- MUL (R75): `x[opA] <- (x[opA] * x[opB]) mod 2^W`, `pc <- pc + 3`. -/
def execMul (a b : Byte) (s : State) : Host.Outcome State Fault Refusal :=
  conclude s (aluInstr .mul a b s)

/-- ADD (R76): `x[opA] <- (x[opA] + x[opB]) mod 2^W`, `pc <- pc + 3`. -/
def execAdd (a b : Byte) (s : State) : Host.Outcome State Fault Refusal :=
  conclude s (aluInstr .add a b s)

/-- CMP (R78): `fl` gets the one-hot comparison of `x[opA]` with `x[opB]`, `pc <- pc + 3`. -/
def execCmp (a b : Byte) (s : State) : Host.Outcome State Fault Refusal :=
  conclude s (aluInstr .cmp a b s)

end Sys2Proof.Machine
end

