-- ==== Sys2Proof/Machine/Stack.lean ====
section
/-! DEFINITION. The stack instructions PUSH and POP (43_stack.md): pre-decrement on a write,
post-increment on a read, one byte an entry (R82). -/

namespace Sys2Proof.Machine

/-- A register read after `SP` has become `sp`: naming `R7` sees the new value (R12, R83, R86). -/
def State.regValAfterSp (s : State) (sp : Nat) (i : Fin 8) : Nat :=
  if i = Config.spIndex then sp else s.regVal i

/-- PUSH (R83): `SP <- SP-1; Memory[SP] <- reg's value`; `PUSH R7` stores the decremented `SP`; a value
above 255 raises `ValueOutOfRange`. -/
def execPush (r : Byte) (s : State) : Host.Outcome State Fault Refusal :=
  conclude s (do
    let i ← regOperand r
    let sp1 ← pushSlot .push s
    let t ← memWrite (s.setSp sp1) sp1 (s.regValAfterSp sp1 i)
    pure (t.advance 2))

/-- POP (R84): `reg <- Memory[SP]; SP <- SP+1`; `POP R7` leaves the popped byte plus 1 in `SP`. -/
def execPop (r : Byte) (s : State) : Host.Outcome State Fault Refusal :=
  conclude s (do
    let d ← regOperand r
    let sp0 ← popSlot .pop s
    let v ← memRead s sp0
    let sp1 ← checkSp .pop s ((if d = Config.spIndex then v.toNat else sp0) + 1)
    pure (((s.setReg d v.toNat).setSp sp1).advance 2))

end Sys2Proof.Machine
end

