-- ==== Sys2Proof/Machine/ControlFlow.lean ====
section
/-! DEFINITION. Control flow: CALL, RET and HLT (44_control_flow.md). -/

namespace Sys2Proof.Machine

/-- CALL (R86): push `pc + 2`, then `pc <- reg's value`, read after the push (`CALL R7` jumps to the
decremented `SP`). The target is not checked (R89). The fetch has made sure that `pc + 2 <= 255`; in a
state where it is not, `MemWrite` raises `ValueOutOfRange` (log entry 6: no cycle gets there). -/
def execCall (r : Byte) (s : State) : Host.Outcome State Fault Refusal :=
  conclude s (do
    let i ← regOperand r
    let sp1 ← pushSlot .call s
    let t ← memWrite (s.setSp sp1) sp1 (s.pcVal + 2)
    pure (t.setPc (s.regValAfterSp sp1 i)))

/-- RET (R87): `pc <- zext_W(Memory[SP])`, `SP <- SP+1`. -/
def execRet (s : State) : Host.Outcome State Fault Refusal :=
  conclude s (do
    let sp0 ← popSlot .ret s
    let v ← memRead s sp0
    let sp1 ← checkSp .ret s (sp0 + 1)
    pure ((s.setSp sp1).setPc v.toNat))

/-- HLT (R88): `run <- Halted`; `pc` still holds the address of the HLT. -/
def execHlt (s : State) : Host.Outcome State Fault Refusal := .next s.halt

end Sys2Proof.Machine
end

