-- ==== Sys2Proof/Machine/DataMovement.lean ====
section
/-! DEFINITION. Data movement: LDI and PRN (41_data_movement.md). -/

namespace Sys2Proof.Machine

/-- LDI (R71): `x[opA] <- zext_W(opB)`, `pc <- pc + 3`. -/
def execLdi (r imm : Byte) (s : State) : Host.Outcome State Fault Refusal :=
  conclude s (do
    let d ← regOperand r
    pure ((s.setReg d (literal imm)).advance 3))

/-- PRN (R72): `emit(x[opA])`, `pc <- pc + 2`. -/
def execPrn (r : Byte) (s : State) : Host.Outcome State Fault Refusal :=
  conclude s (do
    let i ← regOperand r
    pure ((s.emit (s.regVal i)).advance 2))

end Sys2Proof.Machine
end

