-- ==== Sys2Proof/Syntax.lean ====
section
/-! DEFINITION. The instruction set: the ten rows of the opcode table (R2, R53), no more. -/

namespace Sys2Proof

/-- One constructor per row of the opcode table. A register operand is the WHOLE operand byte, not yet
checked (R50: an index above 7 is a legal byte on which the handler faults); an operand byte that an
instruction does not use is not part of it (R52). -/
inductive Instr where
  /-- `LDI Rr,imm` (format RI, R71). -/
  | ldi (r imm : Byte)
  /-- `PRN Rr` (format R, R72). -/
  | prn (r : Byte)
  /-- `MUL Ra,Rb` (format RR, R75). -/
  | mul (a b : Byte)
  /-- `ADD Ra,Rb` (format RR, R76). -/
  | add (a b : Byte)
  /-- `CMP Ra,Rb` (format RR, R78). -/
  | cmp (a b : Byte)
  /-- `PUSH Rr` (format R, R83). -/
  | push (r : Byte)
  /-- `POP Rr` (format R, R84). -/
  | pop (r : Byte)
  /-- `CALL Rr` (format R, R86). -/
  | call (r : Byte)
  /-- `RET` (format N, R87). -/
  | ret
  /-- `HLT` (format N, R88). -/
  | hlt
deriving DecidableEq, Repr

end Sys2Proof
end

