-- ==== Sys2Proof/WellFormed.lean ====
section
/-! DEFINITION. Which instructions can be written in the assembler's notation (R58): every register
operand names one of `R0` to `R7`. The decoder does not use this check: an instruction whose register
byte exceeds 7 decodes, runs, and raises `AddressOutOfRange(register)` (R50, R94; log entry 9). -/

namespace Sys2Proof

/-- The byte names a register of the file (R50: "values 0 to 7 name `R0` to `R7`"). -/
def namesRegister (b : Byte) : Bool := decide (b.toNat < 8)

/-- Every register operand names a register. LDI's literal may be any byte (R51). -/
def Instr.wellFormed : Instr → Bool
  | .ldi r _ => namesRegister r
  | .prn r => namesRegister r
  | .mul a b => namesRegister a && namesRegister b
  | .add a b => namesRegister a && namesRegister b
  | .cmp a b => namesRegister a && namesRegister b
  | .push r => namesRegister r
  | .pop r => namesRegister r
  | .call r => namesRegister r
  | .ret => true
  | .hlt => true

end Sys2Proof
end

