-- ==== Sys2Proof/Decode.lean ====
section
/-! DEFINITION. The decoder (a lookup of the whole opcode byte in the fixed table, R55), total on every
slot, and after it the encoder, written from the formats of R49 and the opcode map of R53. -/

namespace Sys2Proof

/-- The four formats of R49. -/
inductive Format where
  /-- Opcode only; both operand bytes are read and ignored. -/
  | N
  /-- Opcode and one register index. -/
  | R
  /-- Opcode and two register indices. -/
  | RR
  /-- Opcode, register index, 8-bit literal. -/
  | RI
deriving DecidableEq, Repr

/-- Byte length of an instruction of a format (R49). -/
def Format.length : Format → Nat
  | .N => 1
  | .R => 2
  | .RR => 3
  | .RI => 3

/-- One row of the decode table: the opcode byte, its format, and how the two operand bytes of the slot
become the instruction. -/
structure OpcodeRow where
  code : Byte
  format : Format
  build : Byte → Byte → Instr

/-- Why a slot holds no instruction. -/
inductive DecodeError where
  /-- The opcode byte is none of the ten (R55); dispatch raises `UnknownOpcode` for it (R65). -/
  | unknownOpcode (byte : Byte)
deriving DecidableEq, Repr

/-- The decode table (R53, R55, R57): exactly ten values, in the order of the opcode table. -/
def opcodeTable : List OpcodeRow :=
  [ ⟨0x82, .RI, .ldi⟩
  , ⟨0x47, .R, fun a _ => .prn a⟩
  , ⟨0xA2, .RR, .mul⟩
  , ⟨0xA0, .RR, .add⟩
  , ⟨0xA7, .RR, .cmp⟩
  , ⟨0x45, .R, fun a _ => .push a⟩
  , ⟨0x46, .R, fun a _ => .pop a⟩
  , ⟨0x50, .R, fun a _ => .call a⟩
  , ⟨0x11, .N, fun _ _ => .ret⟩
  , ⟨0x01, .N, fun _ _ => .hlt⟩ ]

/-- The row of an opcode byte, if there is one. -/
def opcodeRow (op : Byte) : Option OpcodeRow := opcodeTable.find? (fun row => row.code == op)

/-- The byte is one of the ten opcodes (R53). -/
def isOpcode (op : Byte) : Bool := (opcodeRow op).isSome

/-- The length of the instruction an opcode byte begins, told from the opcode alone (R56). -/
def lengthOfOpcode (op : Byte) : Option Nat := (opcodeRow op).map (fun row => row.format.length)

/-- Decode a fetched slot: the opcode byte and the two bytes after it (R48, R55). -/
def decodeSlot (op opA opB : Byte) : Except DecodeError Instr :=
  match opcodeRow op with
  | some row => .ok (row.build opA opB)
  | none => .error (.unknownOpcode op)

/-- The three bytes of a slot whose bits the opcode table numbers: bit 0 is the least significant bit of
the opcode byte, bits 15..8 are `opA`, bits 23..16 are `opB` (R35: ascending addresses). Bits at and
above `nbits` are 0. -/
def slotOfTableWord (nbits w : Nat) : Byte × Byte × Byte :=
  let v := w % 2 ^ nbits
  (BitVec.ofNat 8 v, BitVec.ofNat 8 (v / 256), BitVec.ofNat 8 (v / 65536))

/-- The instruction the decoder reads from a word of the opcode table. -/
def decodeTableWord (nbits w : Nat) : Option Instr :=
  match decodeSlot (slotOfTableWord nbits w).1 (slotOfTableWord nbits w).2.1
      (slotOfTableWord nbits w).2.2 with
  | .ok i => some i
  | .error _ => none

/-- The bytes of an instruction at ascending addresses, opcode first (R35, R49, R53): as many as its
length. -/
def encode : Instr → List Byte
  | .ldi r imm => [0b10000010, r, imm]
  | .prn r => [0b01000111, r]
  | .mul a b => [0b10100010, a, b]
  | .add a b => [0b10100000, a, b]
  | .cmp a b => [0b10100111, a, b]
  | .push r => [0b01000101, r]
  | .pop r => [0b01000110, r]
  | .call r => [0b01010000, r]
  | .ret => [0b00010001]
  | .hlt => [0b00000001]

/-- The opcode byte of an instruction: the first byte of its encoding. -/
def Instr.opcode (i : Instr) : Byte := (encode i).headD 0

/-- The format of an instruction (the format column of R53). -/
def Instr.format : Instr → Format
  | .ldi _ _ => .RI
  | .prn _ => .R
  | .mul _ _ => .RR
  | .add _ _ => .RR
  | .cmp _ _ => .RR
  | .push _ => .R
  | .pop _ => .R
  | .call _ => .R
  | .ret => .N
  | .hlt => .N

end Sys2Proof
end

