-- ==== Sys2Proof/Machine/Fetch.lean ====
section
/-! DEFINITION. The front of the cycle: fetch, decode and dispatch lookup (R63 to R65), and placing a
word where the next cycle fetches. -/

namespace Sys2Proof.Machine

/-- Read the three bytes of the slot into `ir`, `opA` and `opB`, always all three (R63, R64). -/
def fetch (s : State) : Except FaultCause State := do
  let ir ← memRead s s.pcVal
  let opA ← memRead s (s.pcVal + 1)
  let opB ← memRead s (s.pcVal + 2)
  pure (s.latch ir opA opB)

/-- Look `ir` up in the decode table (R65), after both operand reads. -/
def dispatch (s : State) : Except FaultCause Instr :=
  match decodeSlot s.ir s.opA s.opB with
  | .ok i => .ok i
  | .error (.unknownOpcode b) => .error (.unknownOpcode b s.pcVal)

/-- Store a slot at `pc` and let the engine run, so that the next cycle fetches it. A slot at a `pc`
above 253 would leave memory (R64), so there is nowhere to store it and the state stays as it is
(log entry 7). -/
def State.placeSlot (s : State) (ir opA opB : Byte) : State :=
  if s.pcVal ≤ 253 then
    { ((s.setByte s.pcVal ir).setByte (s.pcVal + 1) opA).setByte (s.pcVal + 2) opB with run := .running }
  else s

end Sys2Proof.Machine
end

