-- ==== Sys2Proof/Machine/Engine.lean ====
section
/-! DEFINITION. One cycle of the engine (R70): fetch, decode, dispatch, execute. -/

namespace Sys2Proof.Machine

/-- The cycle of a running engine (R63 to R66): fetch and decode the slot, look the opcode up, run its
handler; a fault in any of them leaves the state as it was and sets `run` (R68). -/
def runCycle (s : State) : Host.Outcome State Fault Refusal :=
  match fetch s with
  | .error c => .next (s.takeFault c)
  | .ok s1 =>
    match dispatch s1 with
    | .error c => .next (s1.takeFault c)
    | .ok i => exec i s1

/-- One cycle (R70). When the engine does not run, no cycle starts and the state stays (R67; vector
V-ENG-8; log entry 4). -/
def cycle (s : State) : Host.Outcome State Fault Refusal :=
  match s.run with
  | .running => runCycle s
  | .halted => .next s
  | .faulted _ => .next s

/-- The state with a word of the opcode table stored where the next cycle fetches (log entry 7). -/
def State.placeTableWord (s : State) (nbits w : Nat) : State :=
  s.placeSlot (slotOfTableWord nbits w).1 (slotOfTableWord nbits w).2.1 (slotOfTableWord nbits w).2.2

end Sys2Proof.Machine
end

