-- ==== Sys2Proof/Machine/Step.lean ====
section
/-! DEFINITION. The host's step is one cycle of the engine (R70, R116). -/

namespace Sys2Proof.Machine

/-- One step is one cycle (R116: "one cycle of 40_engine.md rule R70 is one indivisible step"). -/
def step (s : State) : Host.Outcome State Fault Refusal := cycle s

/-- The state with a word of the opcode table stored where the next step fetches (log entry 7). -/
def State.withFetchWord (s : State) (nbits w : Nat) : State := s.placeTableWord nbits w

end Sys2Proof.Machine
end

