-- ==== Sys2Proof/Machine/Loader.lean ====
section
/-! DEFINITION. The contract of the external loader (R45 to R47) and the boot order (R98, R107 to R109):
what a run starts from. The loader is outside the block (R5); only what it hands over is stated here. -/

namespace Sys2Proof.Machine

/-- The errors raised before the block runs (R98); no instruction executes after either. -/
inductive HostError where
  /-- A wrong number of process arguments (R47). -/
  | usageError
  /-- A malformed program image (R47); "descriptive": the number of the offending line, from 1. -/
  | loadErrorAtLine (line : Nat)
  /-- An image of more than 256 bytes (R47). -/
  | loadErrorTooLong (bytes : Nat)
deriving DecidableEq, Repr

/-- A text cut into its lines. -/
def splitLines : List Char → List (List Char)
  | [] => [[]]
  | c :: cs =>
    if c = '\n' then [] :: splitLines cs
    else
      match splitLines cs with
      | [] => [[c]]
      | l :: ls => (c :: l) :: ls

/-- A line without its trailing comment and without surrounding whitespace (R46; log entry 12). -/
def lineContent (line : List Char) : List Char :=
  (((line.takeWhile (fun c => c != '#')).dropWhile Char.isWhitespace).reverse.dropWhile
    Char.isWhitespace).reverse

/-- The number that binary digits write, the most significant first; nothing else is a number (R46). -/
def binaryValue : List Char → Nat → Option Nat
  | [], acc => some acc
  | c :: cs, acc =>
    if c = '0' then binaryValue cs (2 * acc)
    else if c = '1' then binaryValue cs (2 * acc + 1)
    else none

/-- The bytes of the lines of an image, the first of them line number `n` (R46, R47): blank and
comment-only lines are skipped, any other line is one or more binary digits worth at most 255. -/
def parseLines : Nat → List (List Char) → Except HostError (List Byte)
  | _, [] => .ok []
  | n, l :: ls =>
    match lineContent l with
    | [] => parseLines (n + 1) ls
    | c :: cs =>
      match binaryValue (c :: cs) 0 with
      | none => .error (.loadErrorAtLine n)
      | some v =>
        if v > 255 then .error (.loadErrorAtLine n)
        else
          match parseLines (n + 1) ls with
          | .error e => .error e
          | .ok bs => .ok (BitVec.ofNat 8 v :: bs)

/-- The byte array the loader hands to the core, or the error that fails the load (R46, R47). -/
def loadImage (text : List Char) : Except HostError (List Byte) :=
  match parseLines 1 (splitLines text) with
  | .error e => .error e
  | .ok image =>
    if image.length > Config.memoryCells then .error (.loadErrorTooLong image.length) else .ok image

/-- The reset input of the block (R62, R107): the reset state with memory as the loader fills it (R45). -/
def State.resetWithImage (cfg : Config) (image : List Byte) : State :=
  { State.resetOf cfg with mem := Memory.ofImage image }

/-- Boot (R109): the host checks its arguments, the loader fills memory, and only then does the block
start. `text` is the image named by a well-formed invocation, `none` a wrong number of arguments. -/
def boot (cfg : Config) (text : Option (List Char)) : Except HostError State :=
  match text with
  | none => .error .usageError
  | some cs =>
    match loadImage cs with
    | .error e => .error e
    | .ok image => .ok (State.resetWithImage cfg image)

end Sys2Proof.Machine
end

