-- ==== Sys2Proof/Machine/Observe.lean ====
section
/-! DEFINITION. What the outside sees of the block: the observation at the end of a run (R117), the
status output (R62) and the text the output boundary shows (R73). -/

namespace Sys2Proof.Machine

/-- "the final registers, `pc`, `fl`, memory, `run` (with `f`) and the output sequence `out`" (R117). -/
structure Observation where
  regs : List Nat
  pc : Nat
  fl : BitVec 8
  mem : Memory
  run : RunState
  out : List Nat
deriving DecidableEq, Repr

/-- The observation of a state (R117); `ir`, `opA`, `opB` are no part of it (R68). -/
def State.observe (s : State) : Observation where
  regs := s.x.toList.map BitVec.toNat
  pc := s.pcVal
  fl := s.fl
  mem := s.mem
  run := s.run
  out := s.outVals

/-- The run has ended: `Halted` or `Faulted(f)` (R111, R117). -/
def State.ended (s : State) : Bool :=
  match s.run with
  | .running => false
  | .halted => true
  | .faulted _ => true

/-- The engine is in `Faulted(f)` for some `f` (R61). -/
def State.isFaulted (s : State) : Bool :=
  match s.run with
  | .running => false
  | .halted => false
  | .faulted _ => true

/-- One output event as text: the decimal digits of the value and one line end (R73).
DESIGN CHOICE (log entry 16): R73 names no character for the line end, so it is an argument. -/
def renderValue (lineEnd : List Char) (v : Nat) : List Char := Nat.toDigits 10 v ++ lineEnd

/-- The observable text of a run: one line per value, in order, each ended by the same `lineEnd` (R73).
DESIGN CHOICE (log entry 16): which characters end a line is an argument. -/
def State.outputText (lineEnd : List Char) (s : State) : List Char :=
  s.outVals.flatMap (renderValue lineEnd)

end Sys2Proof.Machine
end

