-- ==== Sys2Proof/Safety.lean ====
section
/-! DEFINITION. The terms claims are stated in: what two states share, what it is to complete or to
fault, the invariant of the machine, and what a safe run is. -/

namespace Sys2Proof.Machine

/-- Every register but those listed holds in `t` the value it holds in `s`. -/
def sameRegsExcept (ds : List (Fin 8)) (s t : State) : Prop :=
  ∀ k : Fin 8, k ∉ ds → t.regVal k = s.regVal k

/-- Every byte of memory reads in `t` as it reads in `s`. -/
def sameMemory (s t : State) : Prop := ∀ a : Nat, t.byteAt a = s.byteAt a

/-- Every byte of memory but the one at `a` reads in `t` as it reads in `s`. -/
def sameMemoryExcept (a : Nat) (s t : State) : Prop := ∀ b : Nat, b ≠ a → t.byteAt b = s.byteAt b

/-- `W`, the engine state, the instruction register, the operand bytes and the draw counter of `t` are
those of `s`. -/
def sameEngine (s t : State) : Prop :=
  t.cfg = s.cfg ∧ t.run = s.run ∧ t.ir = s.ir ∧ t.opA = s.opA ∧ t.opB = s.opB ∧ t.draws = s.draws

/-- What a fault leaves "exactly as they were before the cycle began" (R68): the registers, `pc`, `fl`,
memory and `out` (and `W`). -/
def sameVisible (s t : State) : Prop :=
  t.cfg = s.cfg ∧ sameRegsExcept [] s t ∧ t.pcVal = s.pcVal ∧ t.fl = s.fl ∧ t.mem = s.mem ∧
    t.outVals = s.outVals

/-- The outcome is the entry of the fault `c` taken in state `s`: the record names `s`'s `pc` and the
cause, and nothing visible changes (R68, R99, R100). -/
def FaultsWith (o : Host.Outcome State Fault Refusal) (s : State) (c : FaultCause) : Prop :=
  ∃ t : State, o = .next t ∧ t.run = .faulted { pc := s.pcVal, cause := c } ∧ sameVisible s t

/-- The opcode byte of the instruction that raises a `StackFault` (R53, R95). -/
def StackOp.opcode : StackOp → Byte
  | .push => 0x45
  | .pop => 0x46
  | .call => 0x50
  | .ret => 0x11

/-- A fault record tells the truth about the state it stands in (R92 to R97): the cause it names is one
the rules raise for the slot at `pc`, with the fields that the rules record. -/
def FaultCause.holdsIn (s : State) : FaultCause → Prop
  | .unknownOpcode b addr =>
    addr = s.pcVal ∧ s.pcVal ≤ 253 ∧ s.byteAt s.pcVal = b ∧ isOpcode b = false
  | .addressOutOfRange .memory index =>
    255 < index ∧ s.pcVal ≤ index ∧ index ≤ s.pcVal + 2 ∧ (255 < s.pcVal → index = s.pcVal) ∧
      (s.pcVal ≤ 255 → index = 256)
  | .addressOutOfRange .register index =>
    s.pcVal ≤ 253 ∧ 7 < index ∧
      (index = (s.byteAt (s.pcVal + 1)).toNat ∨ index = (s.byteAt (s.pcVal + 2)).toNat)
  | .stackFault op sp =>
    s.pcVal ≤ 253 ∧ sp = s.spVal ∧ s.byteAt s.pcVal = op.opcode ∧
      (((op = .push ∨ op = .call) ∧ (sp = 0 ∨ 256 < sp)) ∨
       ((op = .pop ∨ op = .ret) ∧ 255 ≤ sp) ∨
       (op = .pop ∧ s.byteAt (s.pcVal + 1) = 7 ∧ s.byteAt sp = 255))
  | .valueOutOfRange v =>
    s.pcVal ≤ 253 ∧ s.byteAt s.pcVal = 0x45 ∧ 255 < v ∧
      ∃ i : Fin 8, s.byteAt (s.pcVal + 1) = regByte i ∧ v = s.regVal i
  | .unsupportedALUOperation => False

/-- The value of the register an operand byte names (R50); 0 where it names none. -/
def State.regNamedBy (s : State) (b : Byte) : Nat :=
  if h : b.toNat < 8 then s.regVal ⟨b.toNat, h⟩ else 0

/-- The fault a cycle from `s` reports, by the priority list of R102 alone: the first condition that holds,
in its order (1) to (9), read off the bytes of the slot and the registers before the cycle. It is
written without the handlers, so that a statement can hold the two against each other. -/
def priorityFault (s : State) : Option FaultCause :=
  let op := s.byteAt s.pcVal
  let a := s.byteAt (s.pcVal + 1)
  let b := s.byteAt (s.pcVal + 2)
  let popped := (s.byteAt s.spVal).toNat
  if 255 < s.pcVal then some (.addressOutOfRange .memory s.pcVal)
  else if 255 < s.pcVal + 1 then some (.addressOutOfRange .memory (s.pcVal + 1))
  else if 255 < s.pcVal + 2 then some (.addressOutOfRange .memory (s.pcVal + 2))
  else if isOpcode op = false then some (.unknownOpcode op s.pcVal)
  else if op ≠ 0x11 ∧ op ≠ 0x01 ∧ 7 < a.toNat then some (.addressOutOfRange .register a.toNat)
  else if (op = 0xA2 ∨ op = 0xA0 ∨ op = 0xA7) ∧ 7 < b.toNat then
    some (.addressOutOfRange .register b.toNat)
  else if op = 0x45 ∧ (s.spVal = 0 ∨ 255 < s.spVal - 1) then some (.stackFault .push s.spVal)
  else if op = 0x50 ∧ (s.spVal = 0 ∨ 255 < s.spVal - 1) then some (.stackFault .call s.spVal)
  else if op = 0x46 ∧ 255 < s.spVal then some (.stackFault .pop s.spVal)
  else if op = 0x11 ∧ 255 < s.spVal then some (.stackFault .ret s.spVal)
  else if op = 0x46 ∧ 255 < (if a = 7 then popped else s.spVal) + 1 then
    some (.stackFault .pop s.spVal)
  else if op = 0x11 ∧ 255 < s.spVal + 1 then some (.stackFault .ret s.spVal)
  else if op = 0x45 ∧ a ≠ 7 ∧ 255 < s.regNamedBy a then
    some (.valueOutOfRange (s.regNamedBy a))
  else none

/-- The invariant of the machine: memory is in canonical form, `fl` holds a legal value (R22), and a
fault record names the `pc` it stands beside and a cause that holds (R99). -/
def Inv (s : State) : Prop :=
  Memory.wf s.mem = true ∧ legalFlags s.fl = true ∧
    ∀ f : FaultRecord, s.run = .faulted f → f.pc = s.pcVal ∧ f.cause.holdsIn s

/-- `n` cycles of the machine. -/
def runFor (n : Nat) (s : State) : Host.Outcome State Fault Refusal := Host.Core.run Sys2Proof.core n s

/-- A safe run: no number of cycles leaves the engine faulted. -/
def SafeFrom (s : State) : Prop := ∀ n t, runFor n s = .next t → t.isFaulted = false

/-- The run reaches HLT (R61, R88). -/
def HaltsFrom (s : State) : Prop := ∃ n t, runFor n s = .next t ∧ t.run = .halted

end Sys2Proof.Machine
end

