-- ==== Sys2Proof/Certificates/Slice0/Obligations.lean ====
section
/-! DEFINITION. The statements about the machine, for the provers. Values are read through `regVal`,
`spVal`, `pcVal`, `byteAt` and `outVals`, as unsigned numbers (R11); "every state" is every state of a
block of every width `W >= 16` (log entry 1). -/

open Sys2Proof Sys2Proof.Machine

/-! The cycle. -/

/-- R63 to R66: when the engine runs and the slot at `pc` decodes to `i`, one cycle latches the slot and
runs the handler of `i`; nothing is added around it (no generic advance). -/
def Obligations.StepRunsDecodedInstruction : Prop :=
  ∀ (s : State) (i : Instr), s.run = .running → s.pcVal ≤ 253 →
    decodeSlot (s.byteAt s.pcVal) (s.byteAt (s.pcVal + 1)) (s.byteAt (s.pcVal + 2)) = .ok i →
    step s = exec i (s.latch (s.byteAt s.pcVal) (s.byteAt (s.pcVal + 1)) (s.byteAt (s.pcVal + 2)))

/-- R63, R64: an opcode read above 255 faults at `pc`; a slot that begins in memory and runs past 255
faults at 256, whatever the bytes are. -/
def Obligations.SlotOutsideMemoryFaults : Prop :=
  ∀ s : State, s.run = .running →
    (255 < s.pcVal → FaultsWith (step s) s (.addressOutOfRange .memory s.pcVal)) ∧
    (s.pcVal = 255 ∨ s.pcVal = 254 → FaultsWith (step s) s (.addressOutOfRange .memory 256))

/-- R65, R92: a slot inside memory whose opcode byte is none of the ten faults with that byte and the
address it was fetched from. -/
def Obligations.UnknownOpcodeFaults : Prop :=
  ∀ s : State, s.run = .running → s.pcVal ≤ 253 →
    s.byteAt s.pcVal ∉
      ([0x82, 0x47, 0xA2, 0xA0, 0xA7, 0x45, 0x46, 0x50, 0x11, 0x01] : List Byte) →
    FaultsWith (step s) s (.unknownOpcode (s.byteAt s.pcVal) s.pcVal)

/-- R67: when `run` is `Halted` or `Faulted(f)` no further cycle starts: the state stays as it is for
every number of steps. That the model's step answers the same state is log entry 4. -/
def Obligations.StoppedEngineStays : Prop :=
  ∀ (n : Nat) (s : State), s.run ≠ .running → runFor n s = .next s

/-- R61: from `Running` the engine goes to `Running` (an instruction other than HLT), to `Halted` (HLT
only) or to `Faulted`; the other two states are never left. -/
def Obligations.EngineTransitions : Prop :=
  ∀ s t : State, step s = .next t →
    (s.run = .running →
      (t.run = .running ∧ s.byteAt s.pcVal ≠ 0x01) ∨
      (t.run = .halted ∧ s.byteAt s.pcVal = 0x01) ∨
      ∃ f, t.run = .faulted f) ∧
    (s.run ≠ .running → t.run = s.run)

/-- R68 (and the `pc` field of R99): a cycle that ends in `Faulted(f)` leaves registers, `pc`, `fl`,
memory and `out` as they were, and the record names the `pc` of its instruction. -/
def Obligations.FaultsArePrecise : Prop :=
  ∀ (s t : State) (f : FaultRecord), s.run = .running → step s = .next t → t.run = .faulted f →
    f.pc = s.pcVal ∧ sameVisible s t

/-- R102: a cycle of a running engine reports exactly the fault that the priority list gives, and
completes exactly when the list gives none. -/
def Obligations.FaultsFollowPriorityList : Prop :=
  ∀ s : State, s.run = .running →
    (∀ c, FaultsWith (step s) s c ↔ priorityFault s = some c) ∧
    (priorityFault s = none ↔ ∃ t, step s = .next t ∧ (t.run = .running ∨ t.run = .halted))

/-- R25, R26, R63, R64: after a cycle that did not fault, `ir`, `opA` and `opB` hold the three bytes of
the slot it fetched. -/
def Obligations.LatchesHoldTheSlot : Prop :=
  ∀ s t : State, s.run = .running → step s = .next t → (∀ f, t.run ≠ .faulted f) →
    t.ir = s.byteAt s.pcVal ∧ t.opA = s.byteAt (s.pcVal + 1) ∧ t.opB = s.byteAt (s.pcVal + 2)

/-- R25, R26: no cycle reads what `ir`, `opA` and `opB` held before it. The whole next state is equal.
Where the cycle faults, that its three latches are equal too is the model's choice (log entry 3): R68
leaves them open, and hardware that keeps the old ones there would differ in them alone. -/
def Obligations.LatchesNeverReadBeforeFetch : Prop :=
  ∀ (s : State) (a b c : Byte), s.run = .running → step (s.latch a b c) = step s

/-- Every cycle answers a next state: the host's fault and refusal are never reached, since every fault
of the spec has an entry (log entry 5). -/
def Obligations.EveryStepAnswersNext : Prop :=
  ∀ s : State, ∃ t : State, step s = .next t

/-- R97: no cycle raises `UnsupportedALUOperation`. -/
def Obligations.AluErrorUnreachable : Prop :=
  ∀ (s t : State) (f : FaultRecord), s.run = .running → step s = .next t → t.run = .faulted f →
    f.cause ≠ .unsupportedALUOperation

/-- A word placed by the model's `withFetchWord` is the one the next cycle decodes and runs (log entry
7), whatever state the engine was in. -/
def Obligations.PlacedWordRunsNext : Prop :=
  ∀ (s : State) (nbits w : Nat) (i : Instr), Memory.wf s.mem = true → s.pcVal ≤ 253 →
    decodeTableWord nbits w = some i →
    ∃ a b c : Byte, step (s.withFetchWord nbits w) = exec i ((s.withFetchWord nbits w).latch a b c)

/-! Encoding. -/

/-- R53, R60, R58: words written out from the opcode map decode to the instructions they stand for, one
of each family at least. -/
def Obligations.SpecWordsDecode : Prop :=
  decodeSlot 0x82 0x00 0x2A = .ok (.ldi 0 42) ∧ decodeSlot 0x47 0x00 0xFF = .ok (.prn 0) ∧
  decodeSlot 0xA2 0x00 0x01 = .ok (.mul 0 1) ∧ decodeSlot 0x45 0x07 0x00 = .ok (.push 7) ∧
  decodeSlot 0x50 0x01 0x00 = .ok (.call 1) ∧ decodeSlot 0x01 0x00 0x00 = .ok .hlt

/-- R55: exactly the ten byte values are instructions; every other byte is refused by name. -/
def Obligations.OnlyTenOpcodesDecode : Prop :=
  ∀ op a b : Byte,
    (decodeSlot op a b = .error (.unknownOpcode op) ↔
      op ∉ ([0x82, 0x47, 0xA2, 0xA0, 0xA7, 0x45, 0x46, 0x50, 0x11, 0x01] : List Byte)) ∧
    (op ∈ ([0x82, 0x47, 0xA2, 0xA0, 0xA7, 0x45, 0x46, 0x50, 0x11, 0x01] : List Byte) ↔
      ∃ i, decodeSlot op a b = .ok i)

/-- R48, R49, R52, R53: a slot decodes to `i` exactly when it begins with the encoding of `i`; so every
instruction, with every operand byte, is decoded back whatever bytes fill the rest of its slot, and
no slot decodes to anything else. -/
def Obligations.DecodeInvertsEncode : Prop :=
  ∀ (op a b : Byte) (i : Instr), decodeSlot op a b = .ok i ↔ encode i <+: [op, a, b]

/-! Reset and boot. -/

/-- R107, R45: what reset leaves, for every width and every image the loader may hand over. -/
def Obligations.ResetLeaves : Prop :=
  ∀ (cfg : Config) (image : List Byte), image.length ≤ 256 →
    let s := State.resetWithImage cfg image
    (∀ i : Fin 8, i ≠ 7 → s.regVal i = 0) ∧ s.regVal 7 = 0xF4 ∧ s.pcVal = 0 ∧ s.fl = 0 ∧
    s.run = .running ∧ s.outVals = [] ∧
    (∀ a, a < image.length → some (s.byteAt a) = image[a]?) ∧
    (∀ a, image.length ≤ a → s.byteAt a = 0)

/-- R98, R109 (the loader is outside the block, R5; log entry 12): boot starts the block with the image
the loader read, of at most 256 bytes, or reports an error and starts nothing. -/
def Obligations.BootStartsWhatTheLoaderRead : Prop :=
  ∀ (cfg : Config) (text : List Char),
    boot cfg none = .error .usageError ∧
    (∀ e, loadImage text = .error e → boot cfg (some text) = .error e) ∧
    (∀ image, loadImage text = .ok image →
      image.length ≤ 256 ∧ boot cfg (some text) = .ok (State.resetWithImage cfg image))

/-- R46, R47 (the loader is outside the block, R5; log entry 12): an image in which some line, after its
comment and surrounding whitespace are stripped, is neither blank nor a binary number of at most 255
fails the load. -/
def Obligations.MalformedImageFailsLoad : Prop :=
  ∀ (text line : List Char), line ∈ splitLines text → lineContent line ≠ [] →
    ((∃ c ∈ lineContent line, c ≠ '0' ∧ c ≠ '1') ∨
      (∃ v, binaryValue (lineContent line) 0 = some v ∧ 255 < v)) →
    ∃ e, loadImage text = .error e

/-- The invariant holds at reset, for every width and image. -/
def Obligations.InvHoldsAtReset : Prop :=
  Inv State.reset ∧ ∀ (cfg : Config) (image : List Byte), Inv (State.resetWithImage cfg image)

/-! Memory. -/

/-- R31: `MemRead` faults above 255 and otherwise returns the byte. -/
def Obligations.MemReadRule : Prop :=
  ∀ (s : State) (addr : Nat),
    (255 < addr → memRead s addr = .error (.addressOutOfRange .memory addr)) ∧
    (addr ≤ 255 → memRead s addr = .ok (s.byteAt addr))

/-- R32: `MemWrite` checks the address, then the value, and otherwise changes exactly that one cell. -/
def Obligations.MemWriteRule : Prop :=
  ∀ (s : State) (addr v : Nat),
    (255 < addr → memWrite s addr v = .error (.addressOutOfRange .memory addr)) ∧
    (addr ≤ 255 → 255 < v → memWrite s addr v = .error (.valueOutOfRange v)) ∧
    (addr ≤ 255 → v ≤ 255 → Memory.wf s.mem = true →
      ∃ t, memWrite s addr v = .ok t ∧ (t.byteAt addr).toNat = v ∧ sameMemoryExcept addr s t ∧
        sameRegsExcept [] s t ∧ t.pcVal = s.pcVal ∧ t.fl = s.fl ∧ t.outVals = s.outVals ∧
        sameEngine s t)

/-- R33: a cycle changes memory only when it runs PUSH or CALL, and then only the byte below `SP`. -/
def Obligations.OnlyPushAndCallWriteMemory : Prop :=
  ∀ s t : State, step s = .next t →
    (s.byteAt s.pcVal ≠ 0x45 → s.byteAt s.pcVal ≠ 0x50 → sameMemory s t) ∧
    (∀ a, a + 1 ≠ s.spVal → t.byteAt a = s.byteAt a)

/-- R43: a byte that PUSH or CALL has just stored where the next fetch reads is fetched as the opcode. -/
def Obligations.StoreSeenByNextFetch : Prop :=
  ∀ (s t u : State) (i : Fin 8), Memory.wf s.mem = true → s.run = .running →
    t.run = .running → t.pcVal + 1 = s.spVal → fetch t = .ok u →
    (exec (.push (regByte i)) s = .next t →
      u.ir.toNat = if i = 7 then s.spVal - 1 else s.regVal i) ∧
    (exec (.call (regByte i)) s = .next t → u.ir.toNat = s.pcVal + 2)

/-! Data movement. -/

/-- R71, LDI. -/
def Obligations.LdiRule : Prop :=
  ∀ (s : State) (r imm : Byte),
    (7 < r.toNat → FaultsWith (exec (.ldi r imm) s) s (.addressOutOfRange .register r.toNat)) ∧
    (∀ d : Fin 8, r = regByte d →
      ∃ t, exec (.ldi r imm) s = .next t ∧ t.regVal d = imm.toNat ∧
        (s.pcVal ≤ 253 → t.pcVal = s.pcVal + 3) ∧
        sameRegsExcept [d] s t ∧ t.fl = s.fl ∧ sameMemory s t ∧ t.outVals = s.outVals ∧
        sameEngine s t)

/-- R72, PRN. -/
def Obligations.PrnRule : Prop :=
  ∀ (s : State) (r : Byte),
    (7 < r.toNat → FaultsWith (exec (.prn r) s) s (.addressOutOfRange .register r.toNat)) ∧
    (∀ i : Fin 8, r = regByte i →
      ∃ t, exec (.prn r) s = .next t ∧ t.outVals = s.outVals ++ [s.regVal i] ∧
        (s.pcVal ≤ 253 → t.pcVal = s.pcVal + 2) ∧
        sameRegsExcept [] s t ∧ t.fl = s.fl ∧ sameMemory s t ∧ sameEngine s t)

/-- R28, R72: `out` only grows, by at most one value a cycle, over every run; and a cycle that does not
run PRN emits nothing. -/
def Obligations.OutputOnlyGrowsByPrn : Prop :=
  (∀ (n : Nat) (s t : State), runFor n s = .next t →
    s.outVals <+: t.outVals ∧ t.outVals.length ≤ s.outVals.length + n) ∧
  (∀ s t : State, step s = .next t → s.byteAt s.pcVal ≠ 0x47 → t.outVals = s.outVals)

/-- R73: a PRN adds one line to the text of the run, the decimal digits of the register and a line end,
whichever characters end a line (an argument of the model's: log entry 16). -/
def Obligations.PrnAppendsOneLine : Prop :=
  ∀ (s : State) (i : Fin 8),
    ∃ t, exec (.prn (regByte i)) s = .next t ∧
      ∀ lineEnd : List Char,
        t.outputText lineEnd = s.outputText lineEnd ++ (Nat.toDigits 10 (s.regVal i) ++ lineEnd)

/-! The ALU. -/

/-- R74: the ALU's three operations, for words of every width, and its error for any other. -/
def Obligations.AluOperations : Prop :=
  ∀ (w : Nat) (a b : Word w),
    (∃ v : Word w, alu .add a b = .ok (.register v) ∧ v.toNat = (a.toNat + b.toNat) % 2 ^ w) ∧
    (∃ v : Word w, alu .mul a b = .ok (.register v) ∧ v.toNat = (a.toNat * b.toNat) % 2 ^ w) ∧
    alu .cmp a b = .ok (.flags (if a.toNat = b.toNat then 1 else if a.toNat > b.toNat then 2 else 4)) ∧
    ∀ name, alu (.other name) a b = .error .unsupportedALUOperation

/-- R75, MUL. -/
def Obligations.MulRule : Prop :=
  ∀ (s : State) (a b : Byte),
    (7 < a.toNat → FaultsWith (exec (.mul a b) s) s (.addressOutOfRange .register a.toNat)) ∧
    (a.toNat ≤ 7 → 7 < b.toNat →
      FaultsWith (exec (.mul a b) s) s (.addressOutOfRange .register b.toNat)) ∧
    (∀ i j : Fin 8, a = regByte i → b = regByte j →
      ∃ t, exec (.mul a b) s = .next t ∧
        t.regVal i = (s.regVal i * s.regVal j) % 2 ^ s.cfg.W ∧
        (s.pcVal ≤ 253 → t.pcVal = s.pcVal + 3) ∧
        sameRegsExcept [i] s t ∧ t.fl = s.fl ∧ sameMemory s t ∧ t.outVals = s.outVals ∧
        sameEngine s t)

/-- R76, ADD. -/
def Obligations.AddRule : Prop :=
  ∀ (s : State) (a b : Byte),
    (7 < a.toNat → FaultsWith (exec (.add a b) s) s (.addressOutOfRange .register a.toNat)) ∧
    (a.toNat ≤ 7 → 7 < b.toNat →
      FaultsWith (exec (.add a b) s) s (.addressOutOfRange .register b.toNat)) ∧
    (∀ i j : Fin 8, a = regByte i → b = regByte j →
      ∃ t, exec (.add a b) s = .next t ∧
        t.regVal i = (s.regVal i + s.regVal j) % 2 ^ s.cfg.W ∧
        (s.pcVal ≤ 253 → t.pcVal = s.pcVal + 3) ∧
        sameRegsExcept [i] s t ∧ t.fl = s.fl ∧ sameMemory s t ∧ t.outVals = s.outVals ∧
        sameEngine s t)

/-- R78, CMP. -/
def Obligations.CmpRule : Prop :=
  ∀ (s : State) (a b : Byte),
    (7 < a.toNat → FaultsWith (exec (.cmp a b) s) s (.addressOutOfRange .register a.toNat)) ∧
    (a.toNat ≤ 7 → 7 < b.toNat →
      FaultsWith (exec (.cmp a b) s) s (.addressOutOfRange .register b.toNat)) ∧
    (∀ i j : Fin 8, a = regByte i → b = regByte j →
      ∃ t, exec (.cmp a b) s = .next t ∧
        t.fl = (if s.regVal i = s.regVal j then 0b001
          else if s.regVal i > s.regVal j then 0b010 else 0b100) ∧
        (s.pcVal ≤ 253 → t.pcVal = s.pcVal + 3) ∧
        sameRegsExcept [] s t ∧ sameMemory s t ∧ t.outVals = s.outVals ∧ sameEngine s t)

/-- R79: after a completed CMP, E, G and L are the three order relations of the first and second register
before it (so exactly one is set), and no other bit of `fl` is set. -/
def Obligations.CmpFlagsLaw : Prop :=
  ∀ (s : State) (i j : Fin 8),
    ∃ t, exec (.cmp (regByte i) (regByte j)) s = .next t ∧
      (t.E = true ↔ s.regVal i = s.regVal j) ∧ (t.G = true ↔ s.regVal i > s.regVal j) ∧
      (t.L = true ↔ s.regVal i < s.regVal j) ∧ ∀ k, 3 ≤ k → t.fl.getLsbD k = false

/-- R23: CMP is the only writer of `fl`. -/
def Obligations.OnlyCmpWritesFlags : Prop :=
  ∀ s t : State, step s = .next t → s.byteAt s.pcVal ≠ 0xA7 → t.fl = s.fl

/-- R23, R89: no instruction reads `fl`. Two runs of any length that start from states differing only in
`fl` end in states differing only in `fl`. Where a run faults, that its latches are equal too is the
model's choice (log entry 3), since R68 leaves them open. -/
def Obligations.FlagsNeverInfluence : Prop :=
  ∀ (n : Nat) (s : State) (v : BitVec 8),
    ∃ (t : State) (u : BitVec 8), runFor n s = .next t ∧ runFor n (s.setFl v) = .next (t.setFl u)

/-! The stack. -/

/-- R83, PUSH: the four outcomes in their order, and the bytes and registers each leaves. The address
stored to is the one the meaning computes, `pushSlot`. -/
def Obligations.PushRule : Prop :=
  ∀ (s : State) (r : Byte),
    (7 < r.toNat → FaultsWith (exec (.push r) s) s (.addressOutOfRange .register r.toNat)) ∧
    (∀ i : Fin 8, r = regByte i →
      ((s.spVal = 0 ∨ 256 < s.spVal) →
        FaultsWith (exec (.push r) s) s (.stackFault .push s.spVal)) ∧
      (1 ≤ s.spVal → s.spVal ≤ 256 → i ≠ 7 → 255 < s.regVal i →
        FaultsWith (exec (.push r) s) s (.valueOutOfRange (s.regVal i))) ∧
      (1 ≤ s.spVal → s.spVal ≤ 256 → (i ≠ 7 → s.regVal i ≤ 255) →
        ∃ t, exec (.push r) s = .next t ∧ pushSlot .push s = .ok (s.spVal - 1) ∧
          t.spVal = s.spVal - 1 ∧
          (Memory.wf s.mem = true →
            (t.byteAt (s.spVal - 1)).toNat = if i = 7 then s.spVal - 1 else s.regVal i) ∧
          (∀ a, pushSlot .push s = .ok a → sameMemoryExcept a s t) ∧
          (s.pcVal ≤ 253 → t.pcVal = s.pcVal + 2) ∧
          sameRegsExcept [7] s t ∧ t.fl = s.fl ∧ t.outVals = s.outVals ∧ sameEngine s t))

/-- R84, POP: the three outcomes, and what each leaves. `POP R7` leaves the popped byte plus 1. -/
def Obligations.PopRule : Prop :=
  ∀ (s : State) (r : Byte),
    (7 < r.toNat → FaultsWith (exec (.pop r) s) s (.addressOutOfRange .register r.toNat)) ∧
    (∀ d : Fin 8, r = regByte d →
      let v := (s.byteAt s.spVal).toNat
      let sp1 := (if d = 7 then v else s.spVal) + 1
      ((255 < s.spVal ∨ 255 < sp1) →
        FaultsWith (exec (.pop r) s) s (.stackFault .pop s.spVal)) ∧
      (s.spVal ≤ 255 → sp1 ≤ 255 →
        ∃ t, exec (.pop r) s = .next t ∧ (d ≠ 7 → t.regVal d = v) ∧ t.spVal = sp1 ∧
          (s.pcVal ≤ 253 → t.pcVal = s.pcVal + 2) ∧
          sameRegsExcept [d, 7] s t ∧ t.fl = s.fl ∧ sameMemory s t ∧ t.outVals = s.outVals ∧
          sameEngine s t))

/-- R85: PUSH, POP, CALL and RET raise `StackFault` exactly when the address they access or the value
they would leave in `SP` is outside 0 to 255. -/
def Obligations.StackFaultExactly : Prop :=
  ∀ (s : State) (i : Fin 8), s.run = .running →
    (FaultsWith (exec (.push (regByte i)) s) s (.stackFault .push s.spVal) ↔
      s.spVal = 0 ∨ 255 < s.spVal - 1) ∧
    (FaultsWith (exec (.call (regByte i)) s) s (.stackFault .call s.spVal) ↔
      s.spVal = 0 ∨ 255 < s.spVal - 1) ∧
    (FaultsWith (exec (.pop (regByte i)) s) s (.stackFault .pop s.spVal) ↔
      255 < s.spVal ∨ 255 < (if i = 7 then (s.byteAt s.spVal).toNat else s.spVal) + 1) ∧
    (FaultsWith (exec .ret s) s (.stackFault .ret s.spVal) ↔
      255 < s.spVal ∨ 255 < s.spVal + 1)

/-- R96 ("PUSH then POP round-trips a register's value"), with `SP` after the pair as before it. The pair
is taken where neither half faults and `R7` is not named. -/
def Obligations.PushPopRoundTrip : Prop :=
  ∀ (s t : State) (i j : Fin 8), Memory.wf s.mem = true → s.run = .running → i ≠ 7 → j ≠ 7 →
    s.spVal ≤ 255 → exec (.push (regByte i)) s = .next t → t.run = .running →
    ∃ u, exec (.pop (regByte j)) t = .next u ∧ u.regVal j = s.regVal i ∧ u.spVal = s.spVal ∧
      u.run = .running

/-! Control flow. -/

/-- R86, CALL: the three outcomes after a fetch, and what each leaves. `CALL R7` jumps to the decremented
`SP`; the target is not checked. -/
def Obligations.CallRule : Prop :=
  ∀ (s : State) (r : Byte), s.pcVal ≤ 253 →
    (7 < r.toNat → FaultsWith (exec (.call r) s) s (.addressOutOfRange .register r.toNat)) ∧
    (∀ i : Fin 8, r = regByte i →
      ((s.spVal = 0 ∨ 256 < s.spVal) →
        FaultsWith (exec (.call r) s) s (.stackFault .call s.spVal)) ∧
      (1 ≤ s.spVal → s.spVal ≤ 256 →
        ∃ t, exec (.call r) s = .next t ∧ pushSlot .call s = .ok (s.spVal - 1) ∧
          t.spVal = s.spVal - 1 ∧ t.pcVal = (if i = 7 then s.spVal - 1 else s.regVal i) ∧
          (Memory.wf s.mem = true → (t.byteAt (s.spVal - 1)).toNat = s.pcVal + 2) ∧
          (∀ a, pushSlot .call s = .ok a → sameMemoryExcept a s t) ∧
          sameRegsExcept [7] s t ∧ t.fl = s.fl ∧ t.outVals = s.outVals ∧ sameEngine s t))

/-- R87, RET: both outcomes. -/
def Obligations.RetRule : Prop :=
  ∀ s : State,
    ((255 < s.spVal ∨ 255 < s.spVal + 1) → FaultsWith (exec .ret s) s (.stackFault .ret s.spVal)) ∧
    (s.spVal + 1 ≤ 255 →
      ∃ t, exec .ret s = .next t ∧ t.pcVal = (s.byteAt s.spVal).toNat ∧ t.spVal = s.spVal + 1 ∧
        sameRegsExcept [7] s t ∧ t.fl = s.fl ∧ sameMemory s t ∧ t.outVals = s.outVals ∧
        sameEngine s t)

/-- R88, HLT: `run` becomes `Halted` and nothing else changes, `pc` included. -/
def Obligations.HltRule : Prop :=
  ∀ s : State,
    ∃ t, exec .hlt s = .next t ∧ t.run = .halted ∧ sameVisible s t ∧ sameMemory s t ∧
      t.ir = s.ir ∧ t.opA = s.opA ∧ t.opB = s.opB ∧ t.draws = s.draws

/-- R90, the call/return law: CALL jumps to its register's address; when a subroutine reaches RET with
its pushes and pops balanced (`SP` as CALL left it) and the return byte intact, RET goes to the
instruction after the CALL and `SP` is as before the CALL. -/
def Obligations.CallReturnLaw : Prop :=
  ∀ (s t u : State) (i : Fin 8), Memory.wf s.mem = true → s.run = .running → s.pcVal ≤ 253 →
    s.spVal ≤ 255 → exec (.call (regByte i)) s = .next t → t.run = .running →
    u.spVal = t.spVal → u.byteAt u.spVal = t.byteAt t.spVal →
    (i ≠ 7 → t.pcVal = s.regVal i) ∧
    ∃ v, exec .ret u = .next v ∧ v.pcVal = s.pcVal + 2 ∧ v.spVal = s.spVal

/-- R21: "The program counter does not wrap". After a cycle that fetched and did not run CALL, `pc` is at
most 256; in every case it holds the old value, the old value plus the length, a popped byte or a
register's value. -/
def Obligations.PcDoesNotWrap : Prop :=
  ∀ s t : State, s.run = .running → s.pcVal ≤ 253 → step s = .next t →
    (s.byteAt s.pcVal ≠ 0x50 → t.pcVal ≤ 256) ∧
    (s.byteAt s.pcVal ≠ 0x50 → s.byteAt s.pcVal ≠ 0x11 →
      t.pcVal = s.pcVal ∨ t.pcVal = s.pcVal + 2 ∨ t.pcVal = s.pcVal + 3)

/-! Whole-machine invariants. -/

/-- Every cycle, from every state that meets it, keeps the invariant: memory canonical, `fl` legal, and
a fault record that tells the truth (R22, R45, R92 to R99). -/
def Obligations.StepKeepsInv : Prop :=
  ∀ s t : State, Inv s → step s = .next t → Inv t

/-- R7: the width is a parameter of the block; no run changes it (log entry 1). -/
def Obligations.WidthNeverChanges : Prop :=
  ∀ (n : Nat) (s t : State), runFor n s = .next t → t.cfg = s.cfg
end

