-- ==== Sys2Proof/Laws/Decode.lean ====
section
/-! SUPPORT. What the decoder can answer: one of the ten rows with the operands of the slot, or the
unknown opcode. -/

namespace Sys2Proof

/-- The rows of the decode table, as the cases of a successful decode (R53). -/
theorem decodeSlot_cases {op a b : Byte} {i : Instr} (h : decodeSlot op a b = .ok i) :
    (op = 0x82 ∧ i = .ldi a b) ∨ (op = 0x47 ∧ i = .prn a) ∨ (op = 0xA2 ∧ i = .mul a b) ∨
    (op = 0xA0 ∧ i = .add a b) ∨ (op = 0xA7 ∧ i = .cmp a b) ∨ (op = 0x45 ∧ i = .push a) ∨
    (op = 0x46 ∧ i = .pop a) ∨ (op = 0x50 ∧ i = .call a) ∨ (op = 0x11 ∧ i = .ret) ∨
    (op = 0x01 ∧ i = .hlt) := by
  unfold decodeSlot at h
  split at h
  · rename_i row hrow
    injection h with h
    have hcode : row.code = op := by simpa using List.find?_some (p := fun row : OpcodeRow => row.code == op) hrow
    have hmem : row ∈ opcodeTable := List.mem_of_find?_eq_some hrow
    subst h
    subst hcode
    simp only [opcodeTable, List.mem_cons, List.not_mem_nil, or_false] at hmem
    rcases hmem with rfl | rfl | rfl | rfl | rfl | rfl | rfl | rfl | rfl | rfl <;> simp
  · simp at h

/-- Decoding refuses exactly the bytes that are no opcode, and names the byte (R55, R92). -/
theorem decodeSlot_eq_error {op a b : Byte} {e : DecodeError} :
    decodeSlot op a b = .error e ↔ isOpcode op = false ∧ e = .unknownOpcode op := by
  unfold decodeSlot isOpcode
  cases opcodeRow op <;> simp [eq_comm]

/-- An opcode decodes to something, whatever the operand bytes (R52, R55). -/
theorem decodeSlot_of_isOpcode {op : Byte} (a b : Byte) (h : isOpcode op = true) :
    ∃ i, decodeSlot op a b = .ok i := by
  cases hd : decodeSlot op a b with
  | ok i => exact ⟨i, rfl⟩
  | error e => rw [(decodeSlot_eq_error.mp hd).1] at h; simp at h

/-- The bytes that are no opcode, as the complement of the ten values (R53, R55). -/
theorem isOpcode_eq_false_iff : ∀ {op : Byte}, isOpcode op = false ↔
    op ∉ ([0x82, 0x47, 0xA2, 0xA0, 0xA7, 0x45, 0x46, 0x50, 0x11, 0x01] : List Byte) := by
  decide

end Sys2Proof
end

