-- ==== Sys2Proof/Laws/Memory.lean ====
section
/-! SUPPORT. The laws of the memory list: read after write, the canonical form and that every operation
keeps it, and that equal contents are equal data. -/

namespace Sys2Proof.Machine

theorem wfFrom_mono {lo lo' : Nat} (h : lo' ≤ lo) :
    ∀ m : Memory, Memory.wfFrom lo m = true → Memory.wfFrom lo' m = true
  | [], _ => rfl
  | (a, v) :: m, hw => by
    simp only [Memory.wfFrom, Bool.and_eq_true, decide_eq_true_eq] at hw ⊢
    exact ⟨⟨⟨by omega, hw.1.1.2⟩, hw.1.2⟩, hw.2⟩

/-- An address below every listed one reads as unlisted. -/
theorem read_below {lo a : Nat} (h : a < lo) :
    ∀ m : Memory, Memory.wfFrom lo m = true → Memory.read m a = unlistedByte
  | [], _ => rfl
  | (b, u) :: m, hw => by
    simp only [Memory.wfFrom, Bool.and_eq_true, decide_eq_true_eq] at hw
    rw [Memory.read, if_neg (by omega)]
    exact read_below (by omega) m hw.2

theorem cons_read_same (a : Nat) (v : Byte) (m : Memory) (h : Memory.read m a = unlistedByte) :
    Memory.read (Memory.cons a v m) a = v := by
  unfold Memory.cons
  split
  · rename_i hv; rw [h, hv]
  · simp [Memory.read]

theorem cons_read_other {a b : Nat} (v : Byte) (m : Memory) (h : b ≠ a) :
    Memory.read (Memory.cons a v m) b = Memory.read m b := by
  unfold Memory.cons
  split
  · rfl
  · simp [Memory.read, Ne.symm h]

theorem cons_wfFrom {lo a : Nat} (v : Byte) (m : Memory) (hlo : lo ≤ a) (ha : a < 256)
    (hm : Memory.wfFrom (a + 1) m = true) : Memory.wfFrom lo (Memory.cons a v m) = true := by
  unfold Memory.cons
  split
  · exact wfFrom_mono (by omega) m hm
  · rename_i hv
    simp [Memory.wfFrom, hlo, ha, hv, hm]

/-- A write is read back (on a memory in canonical form). -/
theorem write_read_same {lo a : Nat} (v : Byte) :
    ∀ m : Memory, Memory.wfFrom lo m = true → Memory.read (Memory.write m a v) a = v
  | [], _ => cons_read_same a v [] rfl
  | (b, u) :: m, hw => by
    simp only [Memory.wfFrom, Bool.and_eq_true, decide_eq_true_eq] at hw
    unfold Memory.write
    split
    · refine cons_read_same a v _ ?_
      rw [Memory.read, if_neg (by omega)]
      exact read_below (by omega) m hw.2
    · split
      · refine cons_read_same a v m ?_
        exact read_below (lo := b + 1) (by omega) m hw.2
      · rw [Memory.read, if_neg (by omega)]
        exact write_read_same v m hw.2

/-- A write leaves every other address alone. -/
theorem write_read_other {a b : Nat} (v : Byte) (h : b ≠ a) :
    ∀ m : Memory, Memory.read (Memory.write m a v) b = Memory.read m b
  | [] => cons_read_other v [] h
  | (c, u) :: m => by
    unfold Memory.write
    split
    · exact cons_read_other v _ h
    · split
      · rename_i hac
        rw [cons_read_other v m h, Memory.read, if_neg (by omega)]
      · simp only [Memory.read]
        split
        · rfl
        · exact write_read_other v h m

theorem write_wfFrom {a : Nat} (v : Byte) (ha : a < 256) :
    ∀ {lo : Nat} (m : Memory), lo ≤ a → Memory.wfFrom lo m = true →
      Memory.wfFrom lo (Memory.write m a v) = true
  | _, [], hlo, _ => cons_wfFrom v [] hlo ha rfl
  | lo, (b, u) :: m, hlo, hw => by
    have hw' := hw
    simp only [Memory.wfFrom, Bool.and_eq_true, decide_eq_true_eq] at hw'
    unfold Memory.write
    split
    · refine cons_wfFrom v _ hlo ha ?_
      simp only [Memory.wfFrom, Bool.and_eq_true, decide_eq_true_eq]
      exact ⟨⟨⟨by omega, hw'.1.1.2⟩, hw'.1.2⟩, hw'.2⟩
    · split
      · rename_i hab
        exact cons_wfFrom v m hlo ha (by rw [hab]; exact hw'.2)
      · simp only [Memory.wfFrom, Bool.and_eq_true, decide_eq_true_eq]
        exact ⟨hw'.1, write_wfFrom v ha m (by omega) hw'.2⟩

/-- A write inside the array keeps the canonical form. -/
theorem write_wf {a : Nat} (v : Byte) (ha : a < 256) (m : Memory) (hm : Memory.wf m = true) :
    Memory.wf (Memory.write m a v) = true := write_wfFrom v ha m (Nat.zero_le a) hm

/-- In canonical form, equal contents are equal data. -/
theorem wfFrom_ext : ∀ {lo : Nat} (m n : Memory), Memory.wfFrom lo m = true →
    Memory.wfFrom lo n = true → (∀ a, Memory.read m a = Memory.read n a) → m = n
  | _, [], [], _, _, _ => rfl
  | _, [], (b, u) :: n, _, hn, h => by
    simp only [Memory.wfFrom, Bool.and_eq_true, decide_eq_true_eq] at hn
    have hb := h b
    simp only [Memory.read, if_true] at hb
    exact absurd hb.symm hn.1.2
  | _, (a, v) :: m, [], hm, _, h => by
    simp only [Memory.wfFrom, Bool.and_eq_true, decide_eq_true_eq] at hm
    have ha := h a
    simp only [Memory.read, if_true] at ha
    exact absurd ha hm.1.2
  | lo, (a, v) :: m, (b, u) :: n, hm, hn, h => by
    have hm' := hm
    have hn' := hn
    simp only [Memory.wfFrom, Bool.and_eq_true, decide_eq_true_eq] at hm' hn'
    have ha := h a
    have hb := h b
    simp only [Memory.read, if_true] at ha hb
    have hab : a = b := by
      rcases Nat.lt_trichotomy a b with hlt | heq | hgt
      · rw [if_neg (by omega), read_below (lo := b + 1) (by omega) n hn'.2] at ha
        exact absurd ha hm'.1.2
      · exact heq
      · rw [if_neg (by omega), read_below (lo := a + 1) (by omega) m hm'.2] at hb
        exact absurd hb.symm hn'.1.2
    subst hab
    rw [if_pos rfl] at ha
    subst ha
    have hmn : m = n := by
      refine wfFrom_ext m n hm'.2 hn'.2 (fun c => ?_)
      by_cases hc : a = c
      · subst hc
        rw [read_below (lo := a + 1) (by omega) m hm'.2, read_below (lo := a + 1) (by omega) n hn'.2]
      · have := h c
        simpa only [Memory.read, if_neg hc] using this
    rw [hmn]

theorem wf_ext (m n : Memory) (hm : Memory.wf m = true) (hn : Memory.wf n = true)
    (h : ∀ a, Memory.read m a = Memory.read n a) : m = n := wfFrom_ext m n hm hn h

theorem ofBytesFrom_wf : ∀ (a : Nat) (bs : List Byte), a + bs.length ≤ 256 →
    Memory.wfFrom a (Memory.ofBytesFrom a bs) = true
  | _, [], _ => rfl
  | a, b :: bs, h => by
    simp only [List.length_cons] at h
    exact cons_wfFrom b _ (Nat.le_refl a) (by omega) (ofBytesFrom_wf (a + 1) bs (by omega))

theorem ofBytesFrom_read : ∀ (bs : List Byte) (a k : Nat), a + bs.length ≤ 256 →
    Memory.read (Memory.ofBytesFrom a bs) (a + k) = bs.getD k unlistedByte
  | [], _, _, _ => by simp [Memory.ofBytesFrom, Memory.read]
  | b :: bs, a, 0, h => by
    simp only [List.length_cons] at h
    simpa [Memory.ofBytesFrom] using
      cons_read_same a b _ (read_below (lo := a + 1) (by omega) _ (ofBytesFrom_wf (a + 1) bs (by omega)))
  | b :: bs, a, k + 1, h => by
    simp only [List.length_cons] at h
    rw [Memory.ofBytesFrom, cons_read_other b _ (by omega), show a + (k + 1) = a + 1 + k by omega,
      ofBytesFrom_read bs (a + 1) k (by omega)]
    simp

theorem ofImage_wf (image : List Byte) : Memory.wf (Memory.ofImage image) = true :=
  ofBytesFrom_wf 0 _ (by simp)

end Sys2Proof.Machine
end

