-- ==== Sys2Proof/Laws/State.lean ====
section
/-! SUPPORT. What each update of the state leaves in each part of it: one lemma per part per update, so
that no later proof unfolds a record update. -/

namespace Sys2Proof.Machine

/-! `setReg`. -/

@[simp] theorem setReg_cfg (s : State) (i : Fin 8) (v : Nat) :
    (s.setReg i v).cfg = s.cfg := rfl
@[simp] theorem setReg_pcVal (s : State) (i : Fin 8) (v : Nat) :
    (s.setReg i v).pcVal = s.pcVal := rfl
@[simp] theorem setReg_fl (s : State) (i : Fin 8) (v : Nat) :
    (s.setReg i v).fl = s.fl := rfl
@[simp] theorem setReg_ir (s : State) (i : Fin 8) (v : Nat) :
    (s.setReg i v).ir = s.ir := rfl
@[simp] theorem setReg_opA (s : State) (i : Fin 8) (v : Nat) :
    (s.setReg i v).opA = s.opA := rfl
@[simp] theorem setReg_opB (s : State) (i : Fin 8) (v : Nat) :
    (s.setReg i v).opB = s.opB := rfl
@[simp] theorem setReg_run (s : State) (i : Fin 8) (v : Nat) :
    (s.setReg i v).run = s.run := rfl
@[simp] theorem setReg_mem (s : State) (i : Fin 8) (v : Nat) :
    (s.setReg i v).mem = s.mem := rfl
@[simp] theorem setReg_byteAt (s : State) (i : Fin 8) (v : Nat) (b : Nat) :
    (s.setReg i v).byteAt b = s.byteAt b := rfl
@[simp] theorem setReg_outVals (s : State) (i : Fin 8) (v : Nat) :
    (s.setReg i v).outVals = s.outVals := rfl
@[simp] theorem setReg_draws (s : State) (i : Fin 8) (v : Nat) :
    (s.setReg i v).draws = s.draws := rfl

/-! `setPc`. -/

@[simp] theorem setPc_cfg (s : State) (v : Nat) :
    (s.setPc v).cfg = s.cfg := rfl
@[simp] theorem setPc_regVal (s : State) (v : Nat) (k : Fin 8) :
    (s.setPc v).regVal k = s.regVal k := rfl
@[simp] theorem setPc_spVal (s : State) (v : Nat) :
    (s.setPc v).spVal = s.spVal := rfl
@[simp] theorem setPc_fl (s : State) (v : Nat) :
    (s.setPc v).fl = s.fl := rfl
@[simp] theorem setPc_ir (s : State) (v : Nat) :
    (s.setPc v).ir = s.ir := rfl
@[simp] theorem setPc_opA (s : State) (v : Nat) :
    (s.setPc v).opA = s.opA := rfl
@[simp] theorem setPc_opB (s : State) (v : Nat) :
    (s.setPc v).opB = s.opB := rfl
@[simp] theorem setPc_run (s : State) (v : Nat) :
    (s.setPc v).run = s.run := rfl
@[simp] theorem setPc_mem (s : State) (v : Nat) :
    (s.setPc v).mem = s.mem := rfl
@[simp] theorem setPc_byteAt (s : State) (v : Nat) (b : Nat) :
    (s.setPc v).byteAt b = s.byteAt b := rfl
@[simp] theorem setPc_outVals (s : State) (v : Nat) :
    (s.setPc v).outVals = s.outVals := rfl
@[simp] theorem setPc_draws (s : State) (v : Nat) :
    (s.setPc v).draws = s.draws := rfl

/-! `setFl`. -/

@[simp] theorem setFl_cfg (s : State) (v : BitVec 8) :
    (s.setFl v).cfg = s.cfg := rfl
@[simp] theorem setFl_regVal (s : State) (v : BitVec 8) (k : Fin 8) :
    (s.setFl v).regVal k = s.regVal k := rfl
@[simp] theorem setFl_spVal (s : State) (v : BitVec 8) :
    (s.setFl v).spVal = s.spVal := rfl
@[simp] theorem setFl_pcVal (s : State) (v : BitVec 8) :
    (s.setFl v).pcVal = s.pcVal := rfl
@[simp] theorem setFl_ir (s : State) (v : BitVec 8) :
    (s.setFl v).ir = s.ir := rfl
@[simp] theorem setFl_opA (s : State) (v : BitVec 8) :
    (s.setFl v).opA = s.opA := rfl
@[simp] theorem setFl_opB (s : State) (v : BitVec 8) :
    (s.setFl v).opB = s.opB := rfl
@[simp] theorem setFl_run (s : State) (v : BitVec 8) :
    (s.setFl v).run = s.run := rfl
@[simp] theorem setFl_mem (s : State) (v : BitVec 8) :
    (s.setFl v).mem = s.mem := rfl
@[simp] theorem setFl_byteAt (s : State) (v : BitVec 8) (b : Nat) :
    (s.setFl v).byteAt b = s.byteAt b := rfl
@[simp] theorem setFl_outVals (s : State) (v : BitVec 8) :
    (s.setFl v).outVals = s.outVals := rfl
@[simp] theorem setFl_draws (s : State) (v : BitVec 8) :
    (s.setFl v).draws = s.draws := rfl
@[simp] theorem setFl_fl (s : State) (v : BitVec 8) : (s.setFl v).fl = v := rfl

/-! `setByte`. -/

@[simp] theorem setByte_cfg (s : State) (a : Nat) (v : Byte) :
    (s.setByte a v).cfg = s.cfg := rfl
@[simp] theorem setByte_regVal (s : State) (a : Nat) (v : Byte) (k : Fin 8) :
    (s.setByte a v).regVal k = s.regVal k := rfl
@[simp] theorem setByte_spVal (s : State) (a : Nat) (v : Byte) :
    (s.setByte a v).spVal = s.spVal := rfl
@[simp] theorem setByte_pcVal (s : State) (a : Nat) (v : Byte) :
    (s.setByte a v).pcVal = s.pcVal := rfl
@[simp] theorem setByte_fl (s : State) (a : Nat) (v : Byte) :
    (s.setByte a v).fl = s.fl := rfl
@[simp] theorem setByte_ir (s : State) (a : Nat) (v : Byte) :
    (s.setByte a v).ir = s.ir := rfl
@[simp] theorem setByte_opA (s : State) (a : Nat) (v : Byte) :
    (s.setByte a v).opA = s.opA := rfl
@[simp] theorem setByte_opB (s : State) (a : Nat) (v : Byte) :
    (s.setByte a v).opB = s.opB := rfl
@[simp] theorem setByte_run (s : State) (a : Nat) (v : Byte) :
    (s.setByte a v).run = s.run := rfl
@[simp] theorem setByte_outVals (s : State) (a : Nat) (v : Byte) :
    (s.setByte a v).outVals = s.outVals := rfl
@[simp] theorem setByte_draws (s : State) (a : Nat) (v : Byte) :
    (s.setByte a v).draws = s.draws := rfl
@[simp] theorem setByte_mem (s : State) (a : Nat) (v : Byte) : (s.setByte a v).mem = Memory.write s.mem a v := rfl

/-! `emit`. -/

@[simp] theorem emit_cfg (s : State) (v : Nat) :
    (s.emit v).cfg = s.cfg := rfl
@[simp] theorem emit_regVal (s : State) (v : Nat) (k : Fin 8) :
    (s.emit v).regVal k = s.regVal k := rfl
@[simp] theorem emit_spVal (s : State) (v : Nat) :
    (s.emit v).spVal = s.spVal := rfl
@[simp] theorem emit_pcVal (s : State) (v : Nat) :
    (s.emit v).pcVal = s.pcVal := rfl
@[simp] theorem emit_fl (s : State) (v : Nat) :
    (s.emit v).fl = s.fl := rfl
@[simp] theorem emit_ir (s : State) (v : Nat) :
    (s.emit v).ir = s.ir := rfl
@[simp] theorem emit_opA (s : State) (v : Nat) :
    (s.emit v).opA = s.opA := rfl
@[simp] theorem emit_opB (s : State) (v : Nat) :
    (s.emit v).opB = s.opB := rfl
@[simp] theorem emit_run (s : State) (v : Nat) :
    (s.emit v).run = s.run := rfl
@[simp] theorem emit_mem (s : State) (v : Nat) :
    (s.emit v).mem = s.mem := rfl
@[simp] theorem emit_byteAt (s : State) (v : Nat) (b : Nat) :
    (s.emit v).byteAt b = s.byteAt b := rfl
@[simp] theorem emit_draws (s : State) (v : Nat) :
    (s.emit v).draws = s.draws := rfl

/-! `halt`. -/

@[simp] theorem halt_cfg (s : State) :
    (s.halt).cfg = s.cfg := rfl
@[simp] theorem halt_regVal (s : State) (k : Fin 8) :
    (s.halt).regVal k = s.regVal k := rfl
@[simp] theorem halt_spVal (s : State) :
    (s.halt).spVal = s.spVal := rfl
@[simp] theorem halt_pcVal (s : State) :
    (s.halt).pcVal = s.pcVal := rfl
@[simp] theorem halt_fl (s : State) :
    (s.halt).fl = s.fl := rfl
@[simp] theorem halt_ir (s : State) :
    (s.halt).ir = s.ir := rfl
@[simp] theorem halt_opA (s : State) :
    (s.halt).opA = s.opA := rfl
@[simp] theorem halt_opB (s : State) :
    (s.halt).opB = s.opB := rfl
@[simp] theorem halt_mem (s : State) :
    (s.halt).mem = s.mem := rfl
@[simp] theorem halt_byteAt (s : State) (b : Nat) :
    (s.halt).byteAt b = s.byteAt b := rfl
@[simp] theorem halt_outVals (s : State) :
    (s.halt).outVals = s.outVals := rfl
@[simp] theorem halt_draws (s : State) :
    (s.halt).draws = s.draws := rfl
@[simp] theorem halt_run (s : State) : (s.halt).run = .halted := rfl

/-! `latch`. -/

@[simp] theorem latch_cfg (s : State) (u v w : Byte) :
    (s.latch u v w).cfg = s.cfg := rfl
@[simp] theorem latch_regVal (s : State) (u v w : Byte) (k : Fin 8) :
    (s.latch u v w).regVal k = s.regVal k := rfl
@[simp] theorem latch_spVal (s : State) (u v w : Byte) :
    (s.latch u v w).spVal = s.spVal := rfl
@[simp] theorem latch_pcVal (s : State) (u v w : Byte) :
    (s.latch u v w).pcVal = s.pcVal := rfl
@[simp] theorem latch_fl (s : State) (u v w : Byte) :
    (s.latch u v w).fl = s.fl := rfl
@[simp] theorem latch_run (s : State) (u v w : Byte) :
    (s.latch u v w).run = s.run := rfl
@[simp] theorem latch_mem (s : State) (u v w : Byte) :
    (s.latch u v w).mem = s.mem := rfl
@[simp] theorem latch_byteAt (s : State) (u v w : Byte) (b : Nat) :
    (s.latch u v w).byteAt b = s.byteAt b := rfl
@[simp] theorem latch_outVals (s : State) (u v w : Byte) :
    (s.latch u v w).outVals = s.outVals := rfl
@[simp] theorem latch_draws (s : State) (u v w : Byte) :
    (s.latch u v w).draws = s.draws := rfl
@[simp] theorem latch_ir (s : State) (u v w : Byte) : (s.latch u v w).ir = u := rfl
@[simp] theorem latch_opA (s : State) (u v w : Byte) : (s.latch u v w).opA = v := rfl
@[simp] theorem latch_opB (s : State) (u v w : Byte) : (s.latch u v w).opB = w := rfl

/-! `takeFault`. -/

@[simp] theorem takeFault_cfg (s : State) (c : FaultCause) :
    (s.takeFault c).cfg = s.cfg := rfl
@[simp] theorem takeFault_regVal (s : State) (c : FaultCause) (k : Fin 8) :
    (s.takeFault c).regVal k = s.regVal k := rfl
@[simp] theorem takeFault_spVal (s : State) (c : FaultCause) :
    (s.takeFault c).spVal = s.spVal := rfl
@[simp] theorem takeFault_pcVal (s : State) (c : FaultCause) :
    (s.takeFault c).pcVal = s.pcVal := rfl
@[simp] theorem takeFault_fl (s : State) (c : FaultCause) :
    (s.takeFault c).fl = s.fl := rfl
@[simp] theorem takeFault_mem (s : State) (c : FaultCause) :
    (s.takeFault c).mem = s.mem := rfl
@[simp] theorem takeFault_byteAt (s : State) (c : FaultCause) (b : Nat) :
    (s.takeFault c).byteAt b = s.byteAt b := rfl
@[simp] theorem takeFault_outVals (s : State) (c : FaultCause) :
    (s.takeFault c).outVals = s.outVals := rfl
@[simp] theorem takeFault_run (s : State) (c : FaultCause) : (s.takeFault c).run = .faulted { pc := s.pcVal, cause := c } := rfl
@[simp] theorem takeFault_draws (s : State) (c : FaultCause) : (s.takeFault c).draws = s.draws + 3 := rfl

/-! The parts an update writes. -/

@[simp] theorem setReg_regVal (s : State) (i : Fin 8) (v : Nat) (k : Fin 8) :
    (s.setReg i v).regVal k = if k = i then v % 2 ^ s.cfg.W else s.regVal k := by
  by_cases h : k = i
  · subst h; simp [State.setReg, State.regVal, Vector.get_eq_getElem]
  · have : (i : Nat) ≠ k := fun e => h (Fin.ext e.symm)
    simp [State.setReg, State.regVal, Vector.get_eq_getElem, h, this]

@[simp] theorem setReg_spVal (s : State) (i : Fin 8) (v : Nat) :
    (s.setReg i v).spVal = if Config.spIndex = i then v % 2 ^ s.cfg.W else s.spVal :=
  setReg_regVal s i v Config.spIndex

@[simp] theorem setPc_pcVal (s : State) (v : Nat) : (s.setPc v).pcVal = v % 2 ^ s.cfg.W := by
  simp [State.setPc, State.pcVal]

@[simp] theorem emit_outVals (s : State) (v : Nat) :
    (s.emit v).outVals = s.outVals ++ [v % 2 ^ s.cfg.W] := by
  simp [State.emit, State.outVals]

theorem advance_eq (s : State) (n : Nat) : s.advance n = s.setPc (s.pcVal + n) := rfl

theorem setSp_eq (s : State) (v : Nat) : s.setSp v = s.setReg Config.spIndex v := rfl

/-! Every value the state holds fits in `W` bits, and `W` is at least 16. -/

theorem regVal_lt (s : State) (k : Fin 8) : s.regVal k < 2 ^ s.cfg.W := (s.x.get k).isLt

theorem spVal_lt (s : State) : s.spVal < 2 ^ s.cfg.W := regVal_lt s _

theorem pcVal_lt (s : State) : s.pcVal < 2 ^ s.cfg.W := s.pc.isLt

theorem width_ge (c : Config) : 16 ≤ c.W := Nat.le_add_right 16 c.headroom

/-- Anything below 2^16 fits in a register of every width (R7). -/
theorem mod_width_of_lt (c : Config) (v : Nat) (h : v < 65536) : v % 2 ^ c.W = v :=
  Nat.mod_eq_of_lt (Nat.lt_of_lt_of_le h (Nat.pow_le_pow_right (n := 2) (by decide) (width_ge c)))

@[simp] theorem regVal_mod (s : State) (k : Fin 8) : s.regVal k % 2 ^ s.cfg.W = s.regVal k :=
  Nat.mod_eq_of_lt (regVal_lt s k)

end Sys2Proof.Machine
end

