-- ==== Sys2Proof/Laws/Ops.lean ====
section
/-! SUPPORT. One lemma per shared operation that says everything it can answer; later proofs cite these
and unfold nothing. -/

namespace Sys2Proof.Machine

/-! Sequencing of checks. -/

theorem bind_eq_ok {α β : Type} {x : Except FaultCause α} {f : α → Except FaultCause β} {b : β} :
    (x >>= f) = .ok b ↔ ∃ a, x = .ok a ∧ f a = .ok b := by
  cases x <;> simp [bind, Except.bind]

theorem bind_eq_error {α β : Type} {x : Except FaultCause α} {f : α → Except FaultCause β}
    {c : FaultCause} :
    (x >>= f) = .error c ↔ x = .error c ∨ ∃ a, x = .ok a ∧ f a = .error c := by
  cases x <;> simp [bind, Except.bind]

@[simp] theorem ok_bind {α β : Type} (a : α) (f : α → Except FaultCause β) :
    (Except.ok a >>= f) = f a := rfl

@[simp] theorem error_bind {α β : Type} (c : FaultCause) (f : α → Except FaultCause β) :
    (Except.error c >>= f) = .error c := rfl

theorem pure_eq_ok {α : Type} {a b : α} :
    (pure a : Except FaultCause α) = .ok b ↔ b = a := by
  simp [pure, Except.pure, eq_comm]

theorem pure_ne_error {α : Type} {a : α} {c : FaultCause} :
    (pure a : Except FaultCause α) ≠ .error c := by
  simp [pure, Except.pure]

/-! Operands. -/

theorem regByte_toNat (i : Fin 8) : (regByte i).toNat = i.val := by
  have := i.isLt
  simp [regByte]; omega

theorem regByte_le (i : Fin 8) : (regByte i).toNat ≤ 7 := by
  rw [regByte_toNat]; have := i.isLt; omega

theorem regByte_injective {i j : Fin 8} (h : regByte i = regByte j) : i = j :=
  Fin.ext (by rw [← regByte_toNat, ← regByte_toNat, h])

theorem regOperand_eq_ok {b : Byte} {i : Fin 8} : regOperand b = .ok i ↔ b = regByte i := by
  unfold regOperand
  split
  · rename_i h
    simp only [Except.ok.injEq]
    constructor
    · rintro rfl
      exact BitVec.eq_of_toNat_eq (regByte_toNat ⟨b.toNat, h⟩).symm
    · intro hb
      exact Fin.ext (by simp [hb, regByte_toNat])
  · rename_i h
    simp only [reduceCtorEq, false_iff]
    rintro rfl
    exact h (by rw [regByte_toNat]; exact i.isLt)

theorem regOperand_eq_error {b : Byte} {c : FaultCause} :
    regOperand b = .error c ↔ 7 < b.toNat ∧ c = .addressOutOfRange .register b.toNat := by
  unfold regOperand
  split
  · rename_i h
    simp only [reduceCtorEq, false_iff, not_and]
    omega
  · rename_i h
    simp only [Except.error.injEq]
    exact ⟨fun e => ⟨by omega, e.symm⟩, fun e => e.2.symm⟩

@[simp] theorem regOperand_regByte (i : Fin 8) : regOperand (regByte i) = .ok i :=
  regOperand_eq_ok.mpr rfl

theorem regOperand_bad {b : Byte} (h : 7 < b.toNat) :
    regOperand b = .error (.addressOutOfRange .register b.toNat) :=
  regOperand_eq_error.mpr ⟨h, rfl⟩

/-! Memory. -/

theorem memRead_eq_ok {s : State} {a : Nat} {v : Byte} :
    memRead s a = .ok v ↔ a ≤ 255 ∧ v = s.byteAt a := by
  unfold memRead
  split
  · simp; omega
  · simp only [Except.ok.injEq]
    exact ⟨fun e => ⟨by omega, e.symm⟩, fun e => e.2.symm⟩

theorem memRead_eq_error {s : State} {a : Nat} {c : FaultCause} :
    memRead s a = .error c ↔ 255 < a ∧ c = .addressOutOfRange .memory a := by
  unfold memRead
  split
  · simp only [Except.error.injEq]
    exact ⟨fun e => ⟨by omega, e.symm⟩, fun e => e.2.symm⟩
  · simp only [reduceCtorEq, false_iff, not_and]
    omega

theorem memWrite_eq_ok {s t : State} {a v : Nat} :
    memWrite s a v = .ok t ↔ a ≤ 255 ∧ v ≤ 255 ∧ t = s.setByte a (BitVec.ofNat 8 v) := by
  unfold memWrite
  split
  · simp; omega
  · split
    · simp; omega
    · simp only [Except.ok.injEq]
      exact ⟨fun e => ⟨by omega, by omega, e.symm⟩, fun e => e.2.2.symm⟩

theorem memWrite_eq_error {s : State} {a v : Nat} {c : FaultCause} :
    memWrite s a v = .error c ↔
      (255 < a ∧ c = .addressOutOfRange .memory a) ∨ (a ≤ 255 ∧ 255 < v ∧ c = .valueOutOfRange v) := by
  unfold memWrite
  split
  · simp only [Except.error.injEq]
    exact ⟨fun e => .inl ⟨by omega, e.symm⟩, fun e => by rcases e with e | e; exact e.2.symm; omega⟩
  · split
    · simp only [Except.error.injEq]
      exact ⟨fun e => .inr ⟨by omega, by omega, e.symm⟩, fun e => by rcases e with e | e; omega; exact e.2.2.symm⟩
    · simp only [reduceCtorEq, false_iff, not_or, not_and]
      omega

theorem setByte_byteAt_same {s : State} (a : Nat) (v : Byte) (hw : Memory.wf s.mem = true) :
    (s.setByte a v).byteAt a = v := write_read_same (lo := 0) v s.mem hw

theorem setByte_byteAt_other {s : State} {a b : Nat} (v : Byte) (h : b ≠ a) :
    (s.setByte a v).byteAt b = s.byteAt b := write_read_other v h s.mem

/-! Stack pointer checks. -/

theorem pushSlot_eq_ok {op : StackOp} {s : State} {a : Nat} :
    pushSlot op s = .ok a ↔ 1 ≤ s.spVal ∧ s.spVal ≤ 256 ∧ a = s.spVal - 1 := by
  unfold pushSlot
  simp only
  split
  · simp; omega
  · simp only [Except.ok.injEq]
    constructor
    · intro e; omega
    · intro e; omega

theorem pushSlot_eq_error {op : StackOp} {s : State} {c : FaultCause} :
    pushSlot op s = .error c ↔ (s.spVal = 0 ∨ 256 < s.spVal) ∧ c = .stackFault op s.spVal := by
  unfold pushSlot
  simp only
  split
  · simp only [Except.error.injEq]
    exact ⟨fun e => ⟨by omega, e.symm⟩, fun e => e.2.symm⟩
  · simp only [reduceCtorEq, false_iff, not_and]
    omega

theorem popSlot_eq_ok {op : StackOp} {s : State} {a : Nat} :
    popSlot op s = .ok a ↔ s.spVal ≤ 255 ∧ a = s.spVal := by
  unfold popSlot
  split
  · simp; omega
  · simp only [Except.ok.injEq]
    exact ⟨fun e => ⟨by omega, e.symm⟩, fun e => e.2.symm⟩

theorem popSlot_eq_error {op : StackOp} {s : State} {c : FaultCause} :
    popSlot op s = .error c ↔ 255 < s.spVal ∧ c = .stackFault op s.spVal := by
  unfold popSlot
  split
  · simp only [Except.error.injEq]
    exact ⟨fun e => ⟨by omega, e.symm⟩, fun e => e.2.symm⟩
  · simp only [reduceCtorEq, false_iff, not_and]
    omega

theorem checkSp_eq_ok {op : StackOp} {s : State} {n a : Nat} :
    checkSp op s n = .ok a ↔ n ≤ 255 ∧ a = n := by
  unfold checkSp
  split
  · simp; omega
  · simp only [Except.ok.injEq]
    exact ⟨fun e => ⟨by omega, e.symm⟩, fun e => e.2.symm⟩

theorem checkSp_eq_error {op : StackOp} {s : State} {n : Nat} {c : FaultCause} :
    checkSp op s n = .error c ↔ 255 < n ∧ c = .stackFault op s.spVal := by
  unfold checkSp
  split
  · simp only [Except.error.injEq]
    exact ⟨fun e => ⟨by omega, e.symm⟩, fun e => e.2.symm⟩
  · simp only [reduceCtorEq, false_iff, not_and]
    omega

/-! The end of a handler. -/

theorem conclude_eq_next {s t : State} {r : Except FaultCause State} :
    conclude s r = .next t ↔ r = .ok t ∨ ∃ c, r = .error c ∧ t = s.takeFault c := by
  cases r <;> simp [conclude, eq_comm]

@[simp] theorem conclude_ok (s t : State) : conclude s (.ok t) = .next t := rfl

@[simp] theorem conclude_error (s : State) (c : FaultCause) :
    conclude s (.error c) = .next (s.takeFault c) := rfl

theorem conclude_answers_next (s : State) (r : Except FaultCause State) :
    ∃ t, conclude s r = .next t := by
  cases r
  · exact ⟨_, rfl⟩
  · exact ⟨_, rfl⟩

end Sys2Proof.Machine
end

