-- ==== Sys2Proof/Laws/Exec.lean ====
section
/-! SUPPORT. What each meaning can answer: one inversion lemma per instruction (completed with exactly
these writes, or faulted with exactly this cause), from which the facts about every instruction
follow by cases. -/

namespace Sys2Proof.Machine

/-- The cause of a bad register operand. -/
abbrev badReg (b : Byte) : FaultCause := .addressOutOfRange .register b.toNat

theorem execLdi_next {r imm : Byte} {s t : State} (h : execLdi r imm s = .next t) :
    (∃ d, r = regByte d ∧ t = (s.setReg d imm.toNat).advance 3) ∨
      (7 < r.toNat ∧ t = s.takeFault (badReg r)) := by
  replace h := conclude_eq_next.mp h
  rcases h with h | ⟨c, h, rfl⟩
  · obtain ⟨d, hd, h⟩ := bind_eq_ok.mp h
    exact .inl ⟨d, regOperand_eq_ok.mp hd, pure_eq_ok.mp h⟩
  · rcases bind_eq_error.mp h with h | ⟨d, hd, h⟩
    · obtain ⟨hr, rfl⟩ := regOperand_eq_error.mp h
      exact .inr ⟨hr, rfl⟩
    · exact absurd h pure_ne_error

theorem execPrn_next {r : Byte} {s t : State} (h : execPrn r s = .next t) :
    (∃ i, r = regByte i ∧ t = (s.emit (s.regVal i)).advance 2) ∨
      (7 < r.toNat ∧ t = s.takeFault (badReg r)) := by
  replace h := conclude_eq_next.mp h
  rcases h with h | ⟨c, h, rfl⟩
  · obtain ⟨d, hd, h⟩ := bind_eq_ok.mp h
    exact .inl ⟨d, regOperand_eq_ok.mp hd, pure_eq_ok.mp h⟩
  · rcases bind_eq_error.mp h with h | ⟨d, hd, h⟩
    · obtain ⟨hr, rfl⟩ := regOperand_eq_error.mp h
      exact .inr ⟨hr, rfl⟩
    · exact absurd h pure_ne_error

theorem regOperands_eq_ok {a b : Byte} {p : Fin 8 × Fin 8} :
    regOperands a b = .ok p ↔ a = regByte p.1 ∧ b = regByte p.2 := by
  unfold regOperands
  rw [bind_eq_ok]
  constructor
  · rintro ⟨i, hi, h⟩
    obtain ⟨j, hj, h⟩ := bind_eq_ok.mp h
    rw [pure_eq_ok.mp h]
    exact ⟨regOperand_eq_ok.mp hi, regOperand_eq_ok.mp hj⟩
  · rintro ⟨ha, hb⟩
    exact ⟨p.1, regOperand_eq_ok.mpr ha, bind_eq_ok.mpr ⟨p.2, regOperand_eq_ok.mpr hb, rfl⟩⟩

/-- `opA` is checked first: when both are bad the fault names `opA` (R69). -/
theorem regOperands_eq_error {a b : Byte} {c : FaultCause} :
    regOperands a b = .error c ↔
      (7 < a.toNat ∧ c = badReg a) ∨ (a.toNat ≤ 7 ∧ 7 < b.toNat ∧ c = badReg b) := by
  unfold regOperands
  rw [bind_eq_error, regOperand_eq_error]
  constructor
  · rintro (h | ⟨i, hi, h⟩)
    · exact .inl h
    · rcases bind_eq_error.mp h with h | ⟨j, hj, h⟩
      · refine .inr ⟨?_, regOperand_eq_error.mp h⟩
        rw [regOperand_eq_ok.mp hi, regByte_toNat]
        have := i.isLt
        omega
      · exact absurd h pure_ne_error
  · rintro (h | ⟨ha, h⟩)
    · exact .inl h
    · have hi : regOperand a = .ok ⟨a.toNat, by omega⟩ := dif_pos (by omega)
      exact .inr ⟨_, hi, bind_eq_error.mpr (.inl (regOperand_eq_error.mpr h))⟩

theorem aluInstr_eq_ok {op : AluOp} {a b : Byte} {s t : State} :
    aluInstr op a b s = .ok t ↔ ∃ i j e, a = regByte i ∧ b = regByte j ∧
      alu op (s.x.get i) (s.x.get j) = .ok e ∧ t = (s.applyEffect i e).advance 3 := by
  unfold aluInstr
  rw [bind_eq_ok]
  constructor
  · rintro ⟨⟨i, j⟩, hp, h⟩
    obtain ⟨e, he, h⟩ := bind_eq_ok.mp h
    obtain ⟨ha, hb⟩ := regOperands_eq_ok.mp hp
    exact ⟨i, j, e, ha, hb, he, pure_eq_ok.mp h⟩
  · rintro ⟨i, j, e, ha, hb, he, rfl⟩
    exact ⟨(i, j), regOperands_eq_ok.mpr ⟨ha, hb⟩, bind_eq_ok.mpr ⟨e, he, rfl⟩⟩

/-- An ALU instruction whose operation the ALU has faults on its operands only. -/
theorem aluInstr_eq_error {op : AluOp} {a b : Byte} {s : State} {c : FaultCause}
    (hop : ∀ (u v : Word s.cfg.W), ∃ e, alu op u v = .ok e) :
    aluInstr op a b s = .error c ↔
      (7 < a.toNat ∧ c = badReg a) ∨ (a.toNat ≤ 7 ∧ 7 < b.toNat ∧ c = badReg b) := by
  unfold aluInstr
  rw [bind_eq_error, regOperands_eq_error, or_iff_left]
  rintro ⟨⟨i, j⟩, -, h⟩
  rcases bind_eq_error.mp h with h | ⟨e, -, h⟩
  · obtain ⟨e, he⟩ := hop (s.x.get i) (s.x.get j)
    exact absurd (he.symm.trans h) (by simp)
  · exact absurd h pure_ne_error

/-- A register write keeps `v` modulo `2^W`, so narrowing `v` first changes nothing. -/
theorem setReg_mod (s : State) (i : Fin 8) (v : Nat) :
    s.setReg i (v % 2 ^ s.cfg.W) = s.setReg i v := by
  unfold State.setReg
  rw [show BitVec.ofNat s.cfg.W (v % 2 ^ s.cfg.W) = BitVec.ofNat s.cfg.W v from
    BitVec.eq_of_toNat_eq (by simp)]

theorem execMul_next {a b : Byte} {s t : State} (h : execMul a b s = .next t) :
    (∃ i j, a = regByte i ∧ b = regByte j ∧
        t = (s.setReg i (s.regVal i * s.regVal j)).advance 3) ∨
      (7 < a.toNat ∧ t = s.takeFault (badReg a)) ∨
      (a.toNat ≤ 7 ∧ 7 < b.toNat ∧ t = s.takeFault (badReg b)) := by
  replace h := conclude_eq_next.mp h
  rcases h with h | ⟨c, h, rfl⟩
  · obtain ⟨i, j, e, ha, hb, he, rfl⟩ := aluInstr_eq_ok.mp h
    injection he with he
    subst he
    refine .inl ⟨i, j, ha, hb, ?_⟩
    simp only [State.applyEffect, BitVec.toNat_ofNat, setReg_mod]
    rfl
  · rcases (aluInstr_eq_error (fun _ _ => ⟨_, rfl⟩)).mp h with ⟨ha, rfl⟩ | ⟨ha, hb, rfl⟩
    · exact .inr (.inl ⟨ha, rfl⟩)
    · exact .inr (.inr ⟨ha, hb, rfl⟩)

theorem execAdd_next {a b : Byte} {s t : State} (h : execAdd a b s = .next t) :
    (∃ i j, a = regByte i ∧ b = regByte j ∧
        t = (s.setReg i (s.regVal i + s.regVal j)).advance 3) ∨
      (7 < a.toNat ∧ t = s.takeFault (badReg a)) ∨
      (a.toNat ≤ 7 ∧ 7 < b.toNat ∧ t = s.takeFault (badReg b)) := by
  replace h := conclude_eq_next.mp h
  rcases h with h | ⟨c, h, rfl⟩
  · obtain ⟨i, j, e, ha, hb, he, rfl⟩ := aluInstr_eq_ok.mp h
    injection he with he
    subst he
    refine .inl ⟨i, j, ha, hb, ?_⟩
    simp only [State.applyEffect, BitVec.toNat_ofNat, setReg_mod]
    rfl
  · rcases (aluInstr_eq_error (fun _ _ => ⟨_, rfl⟩)).mp h with ⟨ha, rfl⟩ | ⟨ha, hb, rfl⟩
    · exact .inr (.inl ⟨ha, rfl⟩)
    · exact .inr (.inr ⟨ha, hb, rfl⟩)

theorem execCmp_next {a b : Byte} {s t : State} (h : execCmp a b s = .next t) :
    (∃ i j, a = regByte i ∧ b = regByte j ∧
        t = (s.setFl (compareFlags (s.x.get i) (s.x.get j))).advance 3) ∨
      (7 < a.toNat ∧ t = s.takeFault (badReg a)) ∨
      (a.toNat ≤ 7 ∧ 7 < b.toNat ∧ t = s.takeFault (badReg b)) := by
  replace h := conclude_eq_next.mp h
  rcases h with h | ⟨c, h, rfl⟩
  · obtain ⟨i, j, e, ha, hb, he, rfl⟩ := aluInstr_eq_ok.mp h
    injection he with he
    subst he
    exact .inl ⟨i, j, ha, hb, rfl⟩
  · rcases (aluInstr_eq_error (fun _ _ => ⟨_, rfl⟩)).mp h with ⟨ha, rfl⟩ | ⟨ha, hb, rfl⟩
    · exact .inr (.inl ⟨ha, rfl⟩)
    · exact .inr (.inr ⟨ha, hb, rfl⟩)

theorem execPush_next {r : Byte} {s t : State} (h : execPush r s = .next t) :
    (∃ i, r = regByte i ∧ 1 ≤ s.spVal ∧ s.spVal ≤ 256 ∧ s.regValAfterSp (s.spVal - 1) i ≤ 255 ∧
        t = (((s.setSp (s.spVal - 1)).setByte (s.spVal - 1)
          (BitVec.ofNat 8 (s.regValAfterSp (s.spVal - 1) i))).advance 2)) ∨
      (7 < r.toNat ∧ t = s.takeFault (badReg r)) ∨
      (r.toNat ≤ 7 ∧ (s.spVal = 0 ∨ 256 < s.spVal) ∧ t = s.takeFault (.stackFault .push s.spVal)) ∨
      (∃ i, r = regByte i ∧ i ≠ 7 ∧ 1 ≤ s.spVal ∧ s.spVal ≤ 256 ∧ 255 < s.regVal i ∧
        t = s.takeFault (.valueOutOfRange (s.regVal i))) := by
  replace h := conclude_eq_next.mp h
  rcases h with h | ⟨c, h, rfl⟩
  · obtain ⟨i, hi, h⟩ := bind_eq_ok.mp h
    obtain ⟨a, ha, h⟩ := bind_eq_ok.mp h
    obtain ⟨u, hu, h⟩ := bind_eq_ok.mp h
    obtain ⟨h1, h2, rfl⟩ := pushSlot_eq_ok.mp ha
    obtain ⟨-, h3, rfl⟩ := memWrite_eq_ok.mp hu
    exact .inl ⟨i, regOperand_eq_ok.mp hi, h1, h2, h3, pure_eq_ok.mp h⟩
  · rcases bind_eq_error.mp h with h | ⟨i, hi, h⟩
    · obtain ⟨hr, rfl⟩ := regOperand_eq_error.mp h
      exact .inr (.inl ⟨hr, rfl⟩)
    have hi := regOperand_eq_ok.mp hi
    rcases bind_eq_error.mp h with h | ⟨a, ha, h⟩
    · obtain ⟨hsp, rfl⟩ := pushSlot_eq_error.mp h
      refine .inr (.inr (.inl ⟨?_, hsp, rfl⟩))
      rw [hi, regByte_toNat]; have := i.isLt; omega
    obtain ⟨h1, h2, rfl⟩ := pushSlot_eq_ok.mp ha
    rcases bind_eq_error.mp h with h | ⟨u, hu, h⟩
    · rcases memWrite_eq_error.mp h with ⟨h3, -⟩ | ⟨-, h3, rfl⟩
      · omega
      · have h7 : i ≠ Config.spIndex := by
          intro e
          simp only [State.regValAfterSp, e, if_true] at h3
          omega
        simp only [State.regValAfterSp, if_neg h7] at h3 ⊢
        exact .inr (.inr (.inr ⟨i, hi, h7, h1, h2, h3, rfl⟩))
    · exact absurd h pure_ne_error

theorem execPop_next {r : Byte} {s t : State} (h : execPop r s = .next t) :
    (∃ d, r = regByte d ∧ s.spVal ≤ 255 ∧
        (if d = 7 then (s.byteAt s.spVal).toNat else s.spVal) ≤ 254 ∧
        t = (((s.setReg d (s.byteAt s.spVal).toNat).setSp
          ((if d = 7 then (s.byteAt s.spVal).toNat else s.spVal) + 1)).advance 2)) ∨
      (7 < r.toNat ∧ t = s.takeFault (badReg r)) ∨
      (∃ d, r = regByte d ∧ (255 < s.spVal ∨
          (s.spVal ≤ 255 ∧ 254 < (if d = 7 then (s.byteAt s.spVal).toNat else s.spVal))) ∧
        t = s.takeFault (.stackFault .pop s.spVal)) := by
  replace h := conclude_eq_next.mp h
  rcases h with h | ⟨c, h, rfl⟩
  · obtain ⟨d, hd, h⟩ := bind_eq_ok.mp h
    obtain ⟨a, ha, h⟩ := bind_eq_ok.mp h
    obtain ⟨v, hv, h⟩ := bind_eq_ok.mp h
    obtain ⟨q, hq, h⟩ := bind_eq_ok.mp h
    obtain ⟨h1, rfl⟩ := popSlot_eq_ok.mp ha
    obtain ⟨-, rfl⟩ := memRead_eq_ok.mp hv
    obtain ⟨h2, rfl⟩ := checkSp_eq_ok.mp hq
    exact .inl ⟨d, regOperand_eq_ok.mp hd, h1, Nat.le_of_succ_le_succ h2, pure_eq_ok.mp h⟩
  · rcases bind_eq_error.mp h with h | ⟨d, hd, h⟩
    · obtain ⟨hr, rfl⟩ := regOperand_eq_error.mp h
      exact .inr (.inl ⟨hr, rfl⟩)
    have hd := regOperand_eq_ok.mp hd
    rcases bind_eq_error.mp h with h | ⟨a, ha, h⟩
    · obtain ⟨hsp, rfl⟩ := popSlot_eq_error.mp h
      exact .inr (.inr ⟨d, hd, .inl hsp, rfl⟩)
    obtain ⟨h1, rfl⟩ := popSlot_eq_ok.mp ha
    rcases bind_eq_error.mp h with h | ⟨v, hv, h⟩
    · have := (memRead_eq_error.mp h).1
      omega
    obtain ⟨-, rfl⟩ := memRead_eq_ok.mp hv
    rcases bind_eq_error.mp h with h | ⟨q, -, h⟩
    · obtain ⟨h2, rfl⟩ := checkSp_eq_error.mp h
      exact .inr (.inr ⟨d, hd, .inr ⟨h1, Nat.lt_of_succ_lt_succ h2⟩, rfl⟩)
    · exact absurd h pure_ne_error

theorem execCall_next {r : Byte} {s t : State} (h : execCall r s = .next t) :
    (∃ i, r = regByte i ∧ 1 ≤ s.spVal ∧ s.spVal ≤ 256 ∧ s.pcVal ≤ 253 ∧
        t = (((s.setSp (s.spVal - 1)).setByte (s.spVal - 1)
          (BitVec.ofNat 8 (s.pcVal + 2))).setPc (s.regValAfterSp (s.spVal - 1) i))) ∨
      (7 < r.toNat ∧ t = s.takeFault (badReg r)) ∨
      (r.toNat ≤ 7 ∧ (s.spVal = 0 ∨ 256 < s.spVal) ∧ t = s.takeFault (.stackFault .call s.spVal)) ∨
      (253 < s.pcVal ∧ t = s.takeFault (.valueOutOfRange (s.pcVal + 2))) := by
  replace h := conclude_eq_next.mp h
  rcases h with h | ⟨c, h, rfl⟩
  · obtain ⟨i, hi, h⟩ := bind_eq_ok.mp h
    obtain ⟨a, ha, h⟩ := bind_eq_ok.mp h
    obtain ⟨u, hu, h⟩ := bind_eq_ok.mp h
    obtain ⟨h1, h2, rfl⟩ := pushSlot_eq_ok.mp ha
    obtain ⟨-, h3, rfl⟩ := memWrite_eq_ok.mp hu
    exact .inl ⟨i, regOperand_eq_ok.mp hi, h1, h2, by omega, pure_eq_ok.mp h⟩
  · rcases bind_eq_error.mp h with h | ⟨i, hi, h⟩
    · obtain ⟨hr, rfl⟩ := regOperand_eq_error.mp h
      exact .inr (.inl ⟨hr, rfl⟩)
    have hi := regOperand_eq_ok.mp hi
    rcases bind_eq_error.mp h with h | ⟨a, ha, h⟩
    · obtain ⟨hsp, rfl⟩ := pushSlot_eq_error.mp h
      refine .inr (.inr (.inl ⟨?_, hsp, rfl⟩))
      rw [hi, regByte_toNat]; have := i.isLt; omega
    obtain ⟨h1, h2, rfl⟩ := pushSlot_eq_ok.mp ha
    rcases bind_eq_error.mp h with h | ⟨u, hu, h⟩
    · rcases memWrite_eq_error.mp h with ⟨h3, -⟩ | ⟨-, h3, rfl⟩
      · omega
      · exact .inr (.inr (.inr ⟨by omega, rfl⟩))
    · exact absurd h pure_ne_error

theorem execRet_next {s t : State} (h : execRet s = .next t) :
    (s.spVal ≤ 254 ∧ t = (s.setSp (s.spVal + 1)).setPc (s.byteAt s.spVal).toNat) ∨
      (254 < s.spVal ∧ t = s.takeFault (.stackFault .ret s.spVal)) := by
  replace h := conclude_eq_next.mp h
  rcases h with h | ⟨c, h, rfl⟩
  · obtain ⟨a, ha, h⟩ := bind_eq_ok.mp h
    obtain ⟨v, hv, h⟩ := bind_eq_ok.mp h
    obtain ⟨q, hq, h⟩ := bind_eq_ok.mp h
    obtain ⟨h1, rfl⟩ := popSlot_eq_ok.mp ha
    obtain ⟨-, rfl⟩ := memRead_eq_ok.mp hv
    obtain ⟨h2, rfl⟩ := checkSp_eq_ok.mp hq
    exact .inl ⟨by omega, pure_eq_ok.mp h⟩
  · rcases bind_eq_error.mp h with h | ⟨a, ha, h⟩
    · obtain ⟨hsp, rfl⟩ := popSlot_eq_error.mp h
      exact .inr ⟨by omega, rfl⟩
    obtain ⟨h1, rfl⟩ := popSlot_eq_ok.mp ha
    rcases bind_eq_error.mp h with h | ⟨v, hv, h⟩
    · have := (memRead_eq_error.mp h).1
      omega
    rcases bind_eq_error.mp h with h | ⟨q, -, h⟩
    · obtain ⟨h2, rfl⟩ := checkSp_eq_error.mp h
      exact .inr ⟨by omega, rfl⟩
    · exact absurd h pure_ne_error

theorem execHlt_next {s t : State} (h : execHlt s = .next t) : t = s.halt := by
  injection h with h
  exact h.symm

/-- What every meaning keeps: it took a fault, or it completed and left `W`, the latches and (unless it
is HLT) the engine state alone. -/
theorem exec_next_summary {i : Instr} {s t : State} (h : exec i s = .next t) :
    (∃ c, t = s.takeFault c) ∨
      ((i = .hlt → t = s.halt) ∧ (i ≠ .hlt → t.run = s.run) ∧ t.ir = s.ir ∧ t.opA = s.opA ∧
        t.opB = s.opB ∧ t.cfg = s.cfg) := by
  cases i with
  | ldi r imm =>
    rcases execLdi_next h with ⟨_, -, rfl⟩ | ⟨-, rfl⟩
    · simp [advance_eq]
    · exact .inl ⟨_, rfl⟩
  | prn r =>
    rcases execPrn_next h with ⟨_, -, rfl⟩ | ⟨-, rfl⟩
    · simp [advance_eq]
    · exact .inl ⟨_, rfl⟩
  | mul a b =>
    rcases execMul_next h with ⟨_, _, -, -, rfl⟩ | ⟨-, rfl⟩ | ⟨-, -, rfl⟩
    · simp [advance_eq]
    all_goals exact .inl ⟨_, rfl⟩
  | add a b =>
    rcases execAdd_next h with ⟨_, _, -, -, rfl⟩ | ⟨-, rfl⟩ | ⟨-, -, rfl⟩
    · simp [advance_eq]
    all_goals exact .inl ⟨_, rfl⟩
  | cmp a b =>
    rcases execCmp_next h with ⟨_, _, -, -, rfl⟩ | ⟨-, rfl⟩ | ⟨-, -, rfl⟩
    · simp [advance_eq]
    all_goals exact .inl ⟨_, rfl⟩
  | push r =>
    rcases execPush_next h with ⟨_, -, -, -, -, rfl⟩ | ⟨-, rfl⟩ | ⟨-, -, rfl⟩ | ⟨_, -, -, -, -, -, rfl⟩
    · simp [advance_eq, setSp_eq]
    all_goals exact .inl ⟨_, rfl⟩
  | pop r =>
    rcases execPop_next h with ⟨_, -, -, -, rfl⟩ | ⟨-, rfl⟩ | ⟨_, -, -, rfl⟩
    · simp [advance_eq, setSp_eq]
    all_goals exact .inl ⟨_, rfl⟩
  | call r =>
    rcases execCall_next h with ⟨_, -, -, -, -, rfl⟩ | ⟨-, rfl⟩ | ⟨-, -, rfl⟩ | ⟨-, rfl⟩
    · simp [setSp_eq]
    all_goals exact .inl ⟨_, rfl⟩
  | ret =>
    rcases execRet_next h with ⟨-, rfl⟩ | ⟨-, rfl⟩
    · simp [setSp_eq]
    · exact .inl ⟨_, rfl⟩
  | hlt =>
    have ht := execHlt_next h
    subst ht
    simp

/-- Every meaning answers a next state. -/
theorem exec_answers_next (i : Instr) (s : State) : ∃ t, exec i s = .next t := by
  cases i with
  | hlt => exact ⟨_, rfl⟩
  | _ => exact conclude_answers_next s _

end Sys2Proof.Machine
end

