-- ==== Sys2Proof/Laws/PerInstr.lean ====
section
/-! SUPPORT. Facts about every instruction as syntax, one lemma per constructor. -/

/-- How many operand bytes an instruction uses (R54). -/
def Sys2Proof.Laws.operandCount : Sys2Proof.Instr → Nat
  | .ldi _ _ => 2
  | .prn _ => 1
  | .mul _ _ => 2
  | .add _ _ => 2
  | .cmp _ _ => 2
  | .push _ => 1
  | .pop _ => 1
  | .call _ => 1
  | .ret => 0
  | .hlt => 0

/-- The ALU instructions (R54, R74). -/
def Sys2Proof.Laws.isAlu : Sys2Proof.Instr → Bool
  | .ldi _ _ => false
  | .prn _ => false
  | .mul _ _ => true
  | .add _ _ => true
  | .cmp _ _ => true
  | .push _ => false
  | .pop _ => false
  | .call _ => false
  | .ret => false
  | .hlt => false

/-- The instructions that set `pc` explicitly (R54, R89). -/
def Sys2Proof.Laws.setsPc : Sys2Proof.Instr → Bool
  | .ldi _ _ => false
  | .prn _ => false
  | .mul _ _ => false
  | .add _ _ => false
  | .cmp _ _ => false
  | .push _ => false
  | .pop _ => false
  | .call _ => true
  | .ret => true
  | .hlt => false

/-- The structure of the opcode values that R54 observes: bits 7..6 count the operand bytes, bit 5 marks
the ALU, bit 4 marks an explicit `pc`. -/
def Sys2Proof.Laws.OpcodeStructure.Statement (i : Sys2Proof.Instr) : Prop :=
  i.opcode.toNat / 64 = Sys2Proof.Laws.operandCount i ∧
    i.opcode.getLsbD 5 = Sys2Proof.Laws.isAlu i ∧ i.opcode.getLsbD 4 = Sys2Proof.Laws.setsPc i

/-- The encoding is as long as the format of R49 says, and the decoder tells that length from the opcode
byte alone (R56). -/
def Sys2Proof.Laws.EncodingLength.Statement (i : Sys2Proof.Instr) : Prop :=
  (Sys2Proof.encode i).length = i.format.length ∧
    Sys2Proof.lengthOfOpcode i.opcode = some i.format.length

theorem Sys2Proof.Laws.OpcodeStructure.ldi (r imm : Sys2Proof.Byte) : Statement (.ldi r imm) := by
  simp [Statement, Sys2Proof.Instr.opcode, Sys2Proof.encode, operandCount, isAlu, setsPc]
theorem Sys2Proof.Laws.OpcodeStructure.prn (r : Sys2Proof.Byte) : Statement (.prn r) := by
  simp [Statement, Sys2Proof.Instr.opcode, Sys2Proof.encode, operandCount, isAlu, setsPc]
theorem Sys2Proof.Laws.OpcodeStructure.mul (a b : Sys2Proof.Byte) : Statement (.mul a b) := by
  simp [Statement, Sys2Proof.Instr.opcode, Sys2Proof.encode, operandCount, isAlu, setsPc]
theorem Sys2Proof.Laws.OpcodeStructure.add (a b : Sys2Proof.Byte) : Statement (.add a b) := by
  simp [Statement, Sys2Proof.Instr.opcode, Sys2Proof.encode, operandCount, isAlu, setsPc]
theorem Sys2Proof.Laws.OpcodeStructure.cmp (a b : Sys2Proof.Byte) : Statement (.cmp a b) := by
  simp [Statement, Sys2Proof.Instr.opcode, Sys2Proof.encode, operandCount, isAlu, setsPc]
theorem Sys2Proof.Laws.OpcodeStructure.push (r : Sys2Proof.Byte) : Statement (.push r) := by
  simp [Statement, Sys2Proof.Instr.opcode, Sys2Proof.encode, operandCount, isAlu, setsPc]
theorem Sys2Proof.Laws.OpcodeStructure.pop (r : Sys2Proof.Byte) : Statement (.pop r) := by
  simp [Statement, Sys2Proof.Instr.opcode, Sys2Proof.encode, operandCount, isAlu, setsPc]
theorem Sys2Proof.Laws.OpcodeStructure.call (r : Sys2Proof.Byte) : Statement (.call r) := by
  simp [Statement, Sys2Proof.Instr.opcode, Sys2Proof.encode, operandCount, isAlu, setsPc]
theorem Sys2Proof.Laws.OpcodeStructure.ret : Statement .ret := by
  simp [Statement, Sys2Proof.Instr.opcode, Sys2Proof.encode, operandCount, isAlu, setsPc]
theorem Sys2Proof.Laws.OpcodeStructure.hlt : Statement .hlt := by
  simp [Statement, Sys2Proof.Instr.opcode, Sys2Proof.encode, operandCount, isAlu, setsPc]

theorem Sys2Proof.Laws.EncodingLength.ldi (r imm : Sys2Proof.Byte) : Statement (.ldi r imm) := ⟨rfl, rfl⟩
theorem Sys2Proof.Laws.EncodingLength.prn (r : Sys2Proof.Byte) : Statement (.prn r) := ⟨rfl, rfl⟩
theorem Sys2Proof.Laws.EncodingLength.mul (a b : Sys2Proof.Byte) : Statement (.mul a b) := ⟨rfl, rfl⟩
theorem Sys2Proof.Laws.EncodingLength.add (a b : Sys2Proof.Byte) : Statement (.add a b) := ⟨rfl, rfl⟩
theorem Sys2Proof.Laws.EncodingLength.cmp (a b : Sys2Proof.Byte) : Statement (.cmp a b) := ⟨rfl, rfl⟩
theorem Sys2Proof.Laws.EncodingLength.push (r : Sys2Proof.Byte) : Statement (.push r) := ⟨rfl, rfl⟩
theorem Sys2Proof.Laws.EncodingLength.pop (r : Sys2Proof.Byte) : Statement (.pop r) := ⟨rfl, rfl⟩
theorem Sys2Proof.Laws.EncodingLength.call (r : Sys2Proof.Byte) : Statement (.call r) := ⟨rfl, rfl⟩
theorem Sys2Proof.Laws.EncodingLength.ret : Statement .ret := ⟨rfl, rfl⟩
theorem Sys2Proof.Laws.EncodingLength.hlt : Statement .hlt := ⟨rfl, rfl⟩
end

