-- ==== Sys2Proof/Laws/Step.lean ====
section
/-! SUPPORT. What one cycle can do, said once: the cases of `step`, from which the facts about every
cycle follow; and what placing a word to fetch leaves. -/

namespace Sys2Proof.Machine

theorem fetch_eq_ok {s t : State} :
    fetch s = .ok t ↔ s.pcVal ≤ 253 ∧
      t = s.latch (s.byteAt s.pcVal) (s.byteAt (s.pcVal + 1)) (s.byteAt (s.pcVal + 2)) := by
  unfold fetch
  rw [bind_eq_ok]
  constructor
  · rintro ⟨a, ha, h⟩
    obtain ⟨b, hb, h⟩ := bind_eq_ok.mp h
    obtain ⟨c, hc, h⟩ := bind_eq_ok.mp h
    obtain ⟨-, rfl⟩ := memRead_eq_ok.mp ha
    obtain ⟨-, rfl⟩ := memRead_eq_ok.mp hb
    obtain ⟨h3, rfl⟩ := memRead_eq_ok.mp hc
    exact ⟨by omega, pure_eq_ok.mp h⟩
  · rintro ⟨h, rfl⟩
    exact ⟨_, memRead_eq_ok.mpr ⟨by omega, rfl⟩, bind_eq_ok.mpr ⟨_, memRead_eq_ok.mpr ⟨by omega, rfl⟩,
      bind_eq_ok.mpr ⟨_, memRead_eq_ok.mpr ⟨by omega, rfl⟩, rfl⟩⟩⟩

/-- The fetch reports the first address of the slot that leaves memory (R63, R64, R102). -/
theorem fetch_eq_error {s : State} {c : FaultCause} :
    fetch s = .error c ↔ 253 < s.pcVal ∧
      c = .addressOutOfRange .memory (if 255 < s.pcVal then s.pcVal else 256) := by
  unfold fetch
  rw [bind_eq_error]
  constructor
  · rintro (h | ⟨a, ha, h⟩)
    · obtain ⟨hx, rfl⟩ := memRead_eq_error.mp h
      exact ⟨by omega, by rw [if_pos hx]⟩
    have h0 := (memRead_eq_ok.mp ha).1
    rw [if_neg (by omega)]
    rcases bind_eq_error.mp h with h | ⟨b, hb, h⟩
    · obtain ⟨hx, rfl⟩ := memRead_eq_error.mp h
      exact ⟨by omega, by rw [show s.pcVal + 1 = 256 by omega]⟩
    have h1 := (memRead_eq_ok.mp hb).1
    rcases bind_eq_error.mp h with h | ⟨c', -, h⟩
    · obtain ⟨hx, rfl⟩ := memRead_eq_error.mp h
      exact ⟨by omega, by rw [show s.pcVal + 2 = 256 by omega]⟩
    · exact absurd h pure_ne_error
  · rintro ⟨h, rfl⟩
    by_cases h0 : 255 < s.pcVal
    · exact .inl (memRead_eq_error.mpr ⟨h0, by rw [if_pos h0]⟩)
    rw [if_neg h0]
    refine .inr ⟨_, memRead_eq_ok.mpr ⟨by omega, rfl⟩, bind_eq_error.mpr ?_⟩
    by_cases h1 : s.pcVal = 255
    · exact .inl (memRead_eq_error.mpr ⟨by omega, by rw [h1]⟩)
    · exact .inr ⟨_, memRead_eq_ok.mpr ⟨by omega, rfl⟩, bind_eq_error.mpr
        (.inl (memRead_eq_error.mpr ⟨by omega, by rw [show s.pcVal + 2 = 256 by omega]⟩))⟩

/-- The state a handler starts from: the slot latched (R63, R64). -/
abbrev State.fetched (s : State) : State :=
  s.latch (s.byteAt s.pcVal) (s.byteAt (s.pcVal + 1)) (s.byteAt (s.pcVal + 2))

theorem dispatch_fetched (s : State) :
    dispatch s.fetched =
      match decodeSlot (s.byteAt s.pcVal) (s.byteAt (s.pcVal + 1)) (s.byteAt (s.pcVal + 2)) with
      | .ok i => .ok i
      | .error (.unknownOpcode b) => .error (.unknownOpcode b s.pcVal) := rfl

theorem step_running {s : State} (h : s.run = .running) : step s = runCycle s := by
  unfold step cycle
  rw [h]

/-- When the engine does not run, no cycle starts (R67, R70). -/
theorem step_stopped {s : State} (h : s.run ≠ .running) : step s = .next s := by
  unfold step cycle
  split
  · rename_i hr; exact absurd hr h
  · rfl
  · rfl

theorem step_slot_fault {s : State} (hr : s.run = .running) (h : 253 < s.pcVal) :
    step s = .next (s.takeFault
      (.addressOutOfRange .memory (if 255 < s.pcVal then s.pcVal else 256))) := by
  rw [step_running hr]
  simp only [runCycle, fetch_eq_error.mpr ⟨h, rfl⟩]

theorem step_unknown {s : State} (hr : s.run = .running) (h : s.pcVal ≤ 253)
    (ho : isOpcode (s.byteAt s.pcVal) = false) :
    step s = .next (s.fetched.takeFault (.unknownOpcode (s.byteAt s.pcVal) s.pcVal)) := by
  rw [step_running hr]
  simp only [runCycle, fetch_eq_ok.mpr ⟨h, rfl⟩, dispatch_fetched, decodeSlot_eq_error.mpr ⟨ho, rfl⟩]

theorem step_decoded {s : State} {i : Instr} (hr : s.run = .running) (h : s.pcVal ≤ 253)
    (hd : decodeSlot (s.byteAt s.pcVal) (s.byteAt (s.pcVal + 1)) (s.byteAt (s.pcVal + 2)) = .ok i) :
    step s = exec i s.fetched := by
  rw [step_running hr]
  simp only [runCycle, fetch_eq_ok.mpr ⟨h, rfl⟩, dispatch_fetched, hd]

/-- Everything one cycle can do. -/
theorem step_cases {s t : State} (h : step s = .next t) :
    (s.run ≠ .running ∧ t = s) ∨
    (s.run = .running ∧ 253 < s.pcVal ∧ t = s.takeFault
      (.addressOutOfRange .memory (if 255 < s.pcVal then s.pcVal else 256))) ∨
    (s.run = .running ∧ s.pcVal ≤ 253 ∧ isOpcode (s.byteAt s.pcVal) = false ∧
      t = s.fetched.takeFault (.unknownOpcode (s.byteAt s.pcVal) s.pcVal)) ∨
    (s.run = .running ∧ s.pcVal ≤ 253 ∧ ∃ i,
      decodeSlot (s.byteAt s.pcVal) (s.byteAt (s.pcVal + 1)) (s.byteAt (s.pcVal + 2)) = .ok i ∧
      exec i s.fetched = .next t) := by
  by_cases hr : s.run = .running
  · by_cases hp : 253 < s.pcVal
    · rw [step_slot_fault hr hp] at h
      injection h with h
      exact .inr (.inl ⟨hr, hp, h.symm⟩)
    have hp : s.pcVal ≤ 253 := by omega
    cases ho : isOpcode (s.byteAt s.pcVal) with
    | false =>
      rw [step_unknown hr hp ho] at h
      injection h with h
      exact .inr (.inr (.inl ⟨hr, hp, rfl, h.symm⟩))
    | true =>
      obtain ⟨i, hd⟩ := decodeSlot_of_isOpcode (s.byteAt (s.pcVal + 1)) (s.byteAt (s.pcVal + 2)) ho
      rw [step_decoded hr hp hd] at h
      exact .inr (.inr (.inr ⟨hr, hp, i, hd, h⟩))
  · rw [step_stopped hr] at h
    injection h with h
    exact .inl ⟨hr, h.symm⟩

/-- The placed slot reads back, at the place the next cycle fetches. -/
theorem placeSlot_bytes {s : State} (a b c : Byte) (hp : s.pcVal ≤ 253)
    (hw : Memory.wf s.mem = true) :
    (s.placeSlot a b c).byteAt s.pcVal = a ∧ (s.placeSlot a b c).byteAt (s.pcVal + 1) = b ∧
      (s.placeSlot a b c).byteAt (s.pcVal + 2) = c := by
  have h1 := write_wf a (a := s.pcVal) (by omega) s.mem hw
  have h2 := write_wf b (a := s.pcVal + 1) (by omega) _ h1
  unfold State.placeSlot
  rw [if_pos hp]
  simp only [State.byteAt, State.setByte]
  refine ⟨?_, ?_, write_read_same (lo := 0) c _ h2⟩
  · rw [write_read_other c (by omega), write_read_other b (by omega)]
    exact write_read_same (lo := 0) a _ hw
  · rw [write_read_other c (by omega)]
    exact write_read_same (lo := 0) b _ h1

end Sys2Proof.Machine
end

