-- ==== Sys2Proof/Laws/Safety.lean ====
section
/-! SUPPORT. The terms of Safety.lean, in terms of the shared operations. -/

namespace Sys2Proof.Machine

/-- Taking a fault changes nothing visible (R68). -/
theorem takeFault_sameVisible (s : State) (c : FaultCause) : sameVisible s (s.takeFault c) :=
  ⟨rfl, fun _ _ => rfl, rfl, rfl, rfl, rfl⟩

theorem faultsWith_of_eq {o : Host.Outcome State Fault Refusal} {s : State} {c : FaultCause}
    (h : o = .next (s.takeFault c)) : FaultsWith o s c :=
  ⟨_, h, rfl, takeFault_sameVisible s c⟩

/-- A cycle's fault is taken in the state with the slot latched; what is visible is the same. -/
theorem faultsWith_of_eq_latch {o : Host.Outcome State Fault Refusal} {s : State} {u v w : Byte}
    {c : FaultCause} (h : o = .next ((s.latch u v w).takeFault c)) : FaultsWith o s c :=
  ⟨_, h, rfl, rfl, fun _ _ => rfl, rfl, rfl, rfl, rfl⟩

theorem regNamedBy_regByte (s : State) (i : Fin 8) : s.regNamedBy (regByte i) = s.regVal i := by
  have hi : (⟨(regByte i).toNat, by have := regByte_le i; omega⟩ : Fin 8) = i :=
    Fin.ext (regByte_toNat i)
  unfold State.regNamedBy
  rw [dif_pos (by have := regByte_le i; omega), hi]

theorem run_succ (M : Host.Core) (n : Nat) {s t : M.State} (h : M.step s = .next t) :
    M.run (n + 1) s = M.run n t := by
  simp only [Host.Core.run, h]

/-- One more cycle at the front of a run. -/
theorem runFor_succ (n : Nat) (s t : State) (h : step s = .next t) :
    runFor (n + 1) s = runFor n t := run_succ Sys2Proof.core n h

/-- What holds along one cycle and is transitive holds along every run. -/
theorem runFor_induction {R : State → State → Prop} (hrefl : ∀ s, R s s)
    (hstep : ∀ s t u, step s = .next t → R t u → R s u) (hnext : ∀ s, ∃ t, step s = .next t) :
    ∀ (n : Nat) (s t : State), runFor n s = .next t → R s t
  | 0, s, t, h => by
    injection h with h
    exact h ▸ hrefl s
  | n + 1, s, t, h => by
    obtain ⟨u, hu⟩ := hnext s
    rw [runFor_succ n s u hu] at h
    exact hstep s u t hu (runFor_induction hrefl hstep hnext n u t h)

end Sys2Proof.Machine
end

