-- ==== Sys2Proof/Machine/Assembly.lean ====
section
/-! DEFINITION. The mnemonic form of an instruction (R13, R58): a way of writing it for people. No
assembler reads it (R58, R59), so it is a printer only. -/

namespace Sys2Proof.Machine

/-- A register as `R0` to `R7` (R58); an index above 7 prints its number, though no assembly names it. -/
def asmReg (b : Byte) : String := "R" ++ toString b.toNat

/-- The mnemonic, a space, then the operands separated by a comma; literals in decimal (R58). -/
def asm : Instr → String
  | .ldi r imm => "LDI " ++ asmReg r ++ "," ++ toString imm.toNat
  | .prn r => "PRN " ++ asmReg r
  | .mul a b => "MUL " ++ asmReg a ++ "," ++ asmReg b
  | .add a b => "ADD " ++ asmReg a ++ "," ++ asmReg b
  | .cmp a b => "CMP " ++ asmReg a ++ "," ++ asmReg b
  | .push r => "PUSH " ++ asmReg r
  | .pop r => "POP " ++ asmReg r
  | .call r => "CALL " ++ asmReg r
  | .ret => "RET"
  | .hlt => "HLT"

end Sys2Proof.Machine
end

