-- ==== Sys2Proof/Tests/Slice0.lean ====
section
/-! SUPPORT. The model's own tests: the decoder against words written out from R53, each instruction
against a vector of 95_test_vectors.md (its id stands in the comment), the smoke test of WellFormed,
and a witness for the hypotheses of every statement. Each theorem is about one step at most. -/

namespace Sys2Proof.Machine.Tests

/-- A running state of width 16: an image, a `pc`, and values for some registers. -/
def mk (image : List Byte) (pc : Nat) (regs : List (Fin 8 × Nat)) : State :=
  (regs.foldl (fun s p => s.setReg p.1 p.2) (State.resetWithImage Config.reference image)).setPc pc

/-- What one cycle leaves of a part of the state. -/
def after {α : Type} (s : State) (f : State → α) : Option α :=
  match step s with
  | .next t => some (f t)
  | .fault _ => none
  | .refused _ => none

/-- The next state of one cycle. -/
def stepped (s : State) : State :=
  match step s with
  | .next t => t
  | .fault _ => s
  | .refused _ => s

/-- The next state of one meaning. -/
def did (i : Instr) (s : State) : State :=
  match exec i s with
  | .next t => t
  | .fault _ => s
  | .refused _ => s

/-- The record of a fault of the instruction at `pc`. -/
abbrev faultAt (pc : Nat) (c : FaultCause) : RunState := .faulted { pc := pc, cause := c }

/-! WellFormed refuses a register byte above 7, in each place that holds one (R50, R58). -/

theorem test_wf_ldi : (Instr.ldi 8 0).wellFormed = false := by decide
theorem test_wf_prn : (Instr.prn 8).wellFormed = false := by decide
theorem test_wf_mul_a : (Instr.mul 8 0).wellFormed = false := by decide
theorem test_wf_mul_b : (Instr.mul 0 255).wellFormed = false := by decide
theorem test_wf_add_a : (Instr.add 8 0).wellFormed = false := by decide
theorem test_wf_add_b : (Instr.add 0 8).wellFormed = false := by decide
theorem test_wf_cmp_a : (Instr.cmp 128 0).wellFormed = false := by decide
theorem test_wf_cmp_b : (Instr.cmp 7 8).wellFormed = false := by decide
theorem test_wf_push : (Instr.push 8).wellFormed = false := by decide
theorem test_wf_pop : (Instr.pop 255).wellFormed = false := by decide
theorem test_wf_call : (Instr.call 8).wellFormed = false := by decide
/-- LDI's literal may be any byte (R51). -/
theorem test_wf_literal : (Instr.ldi 7 255).wellFormed = true := by decide

/-! The decoder against words written out bit by bit from the table of R53. -/

theorem test_decode_ldi : decodeSlot 0b10000010 0b00000011 0b11111111 = .ok (.ldi 3 255) := by decide
theorem test_decode_prn : decodeSlot 0b01000111 0b00000010 0b11111111 = .ok (.prn 2) := by decide
theorem test_decode_mul : decodeSlot 0b10100010 0b00000000 0b00000001 = .ok (.mul 0 1) := by decide
theorem test_decode_add : decodeSlot 0b10100000 0b00000111 0b00000000 = .ok (.add 7 0) := by decide
theorem test_decode_cmp : decodeSlot 0b10100111 0b00000001 0b00000000 = .ok (.cmp 1 0) := by decide
theorem test_decode_push : decodeSlot 0b01000101 0b00000111 0b00000000 = .ok (.push 7) := by decide
theorem test_decode_pop : decodeSlot 0b01000110 0b00000001 0b00000000 = .ok (.pop 1) := by decide
theorem test_decode_call : decodeSlot 0b01010000 0b00000001 0b10101010 = .ok (.call 1) := by decide
theorem test_decode_ret : decodeSlot 0b00010001 0b11111111 0b11111111 = .ok .ret := by decide
theorem test_decode_hlt : decodeSlot 0b00000001 0b10000000 0b00000001 = .ok .hlt := by decide
/-- V-ENG-5: a byte that fits the ALU pattern but is no opcode. -/
theorem test_decode_A1 : decodeSlot 0xA1 0 0 = .error (.unknownOpcode 0xA1) := by decide
/-- R60: `LDI R0,42` as a word of the opcode table, first byte in the low bits (R35). -/
theorem test_decode_word : decodeTableWord 24 0x2A0082 = some (.ldi 0 42) := by decide
/-- R60: the same instruction's bytes. -/
theorem test_encode_ldi : encode (.ldi 0 42) = [0x82, 0x00, 0x2A] := by decide
theorem test_encode_prn : encode (.prn 0) = [0x47, 0x00] := by decide

/-! The engine. -/

/-- V-ENG-1 and V-ENG-6: the slot fault outranks what the opcode byte is. -/
theorem test_eng_254 : after ((mk [] 254 []).setByte 254 0x01) (·.run) =
    some (faultAt 254 (.addressOutOfRange .memory 256)) := by decide
/-- V-ENG-3. -/
theorem test_eng_256 : after (mk [] 256 []) (·.run) =
    some (faultAt 256 (.addressOutOfRange .memory 256)) := by decide
/-- V-ENG-5. -/
theorem test_eng_A1 : after (mk [0xA1] 0 []) (·.run) = some (faultAt 0 (.unknownOpcode 0xA1 0)) := by
  decide
/-- V-ENG-7: an instruction at 253 completes and leaves `pc` at 256. -/
theorem test_eng_253 : after (((mk [] 253 []).setByte 253 0x82).setByte 255 0x05)
    (fun t => (t.regVal 0, t.pcVal)) = some (5, 256) := by decide
/-- V-ENG-8: no cycle when halted. -/
theorem test_eng_halted : step (mk [0x82, 0, 1] 0 []).halt = .next (mk [0x82, 0, 1] 0 []).halt := rfl
/-- R91: the codes. -/
theorem test_codes : (FaultCause.unknownOpcode 0 0).code = 1 ∧
    (FaultCause.addressOutOfRange .memory 0).code = 2 ∧
    (FaultCause.addressOutOfRange .register 0).code = 3 ∧ (FaultCause.stackFault .pop 0).code = 4 ∧
    (FaultCause.valueOutOfRange 0).code = 5 ∧ FaultCause.unsupportedALUOperation.code = 6 := by decide

/-! Data movement. -/

/-- V-LDI-1. -/
theorem test_ldi_255 : after (mk [0x82, 0x03, 0xFF] 0 []) (fun t => (t.regVal 3, t.pcVal)) =
    some (255, 3) := by decide
/-- V-LDI-4: the index is not masked to 7. -/
theorem test_ldi_index_255 : after (mk [0x82, 0xFF, 0x01] 0 []) (fun t => (t.run, t.regVal 7)) =
    some (faultAt 0 (.addressOutOfRange .register 255), 0xF4) := by decide
/-- V-PRN-1: the full register value, above 255. -/
theorem test_prn_65025 : after (mk [0x47, 0x02] 0 [(2, 65025)]) (fun t => (t.outVals, t.pcVal)) =
    some ([65025], 2) := by decide
/-- V-PRN-2: a faulting PRN emits nothing. -/
theorem test_prn_9 : after (mk [0x47, 0x09] 0 []) (fun t => (t.run, t.outVals)) =
    some (faultAt 0 (.addressOutOfRange .register 9), []) := by decide

/-! The ALU. -/

/-- V-MUL-3 at `W = 16`, and at `W = 17`: the width is a parameter. -/
theorem test_mul_wraps_at_16 : after (mk [0xA2, 0, 1] 0 [(0, 256), (1, 256)]) (·.regVal 0) = some 0 := by
  decide
theorem test_mul_fits_at_17 : after (((State.resetWithImage ⟨1⟩ [0xA2, 0, 1]).setReg 0 256).setReg 1 256)
    (·.regVal 0) = some 65536 := by decide
/-- V-ADD-3. -/
theorem test_add_wraps : after (mk [0xA0, 0, 1] 0 [(0, 0xFFFF), (1, 0xFFFF)])
    (fun t => (t.regVal 0, t.regVal 1, t.fl)) = some (0xFFFE, 0xFFFF, 0) := by decide
/-- V-ADD-4: an explicit write of `R7` is not checked. -/
theorem test_add_r7 : after (mk [0xA0, 7, 0] 0 [(0, 0x20)]) (fun t => (t.regVal 7, t.run)) =
    some (276, .running) := by decide
/-- V-CMP-4: the comparison is unsigned. -/
theorem test_cmp_unsigned : after (mk [0xA7, 0, 1] 0 [(1, 0xFFFF)]) (·.fl) = some 0b100 := by decide
/-- V-CMP-6: on a fault `fl` is unchanged; V-MUL-8 and R69: the first bad operand is named. -/
theorem test_cmp_fault : after ((mk [0xA7, 9, 8] 0 []).setFl 0b010) (fun t => (t.run, t.fl)) =
    some (faultAt 0 (.addressOutOfRange .register 9), 0b010) := by decide

/-! The stack. -/

/-- V-PUSH-5: `PUSH R7` stores the decremented stack pointer. -/
theorem test_push_r7 : after (mk [0x45, 7] 0 []) (fun t => (t.spVal, t.byteAt 0xF3)) =
    some (0xF3, 0xF3) := by decide
/-- V-PUSH-7: `SP = 256` is legal for a push. -/
theorem test_push_256 : after (mk [0x45, 0] 0 [(7, 256), (0, 1)]) (fun t => (t.spVal, t.byteAt 255)) =
    some (255, 1) := by decide
/-- V-POP-5: `POP R7` leaves the popped byte plus 1. -/
theorem test_pop_r7 : after ((mk [0x46, 7] 0 [(7, 0xF3)]).setByte 0xF3 0x20) (·.spVal) = some 0x21 := by
  decide
/-- V-POP-6: the new `SP` would be 256. -/
theorem test_pop_r7_fault : after ((mk [0x46, 7] 0 [(7, 0xF0)]).setByte 0xF0 0xFF)
    (fun t => (t.run, t.spVal)) = some (faultAt 0 (.stackFault .pop 0xF0), 0xF0) := by decide

/-! Control flow. -/

/-- V-CALL-2: `CALL R7` jumps to the decremented stack pointer. -/
theorem test_call_r7 : after (mk [0x50, 7] 0 []) (fun t => (t.spVal, t.byteAt 0xF3, t.pcVal)) =
    some (0xF3, 2, 0xF3) := by decide
/-- V-CALL-4: the target is not checked. -/
theorem test_call_300 : after (mk [0x50, 1] 0 [(1, 300)]) (fun t => (t.pcVal, t.run)) =
    some (300, .running) := by decide
/-- V-RET-1. -/
theorem test_ret : after ((mk [0x11] 0 [(7, 0xF3)]).setByte 0xF3 8) (fun t => (t.pcVal, t.spVal)) =
    some (8, 0xF4) := by decide
/-- V-RET-3. -/
theorem test_ret_ff : after (mk [0x11] 0 [(7, 0xFF)]) (·.run) =
    some (faultAt 0 (.stackFault .ret 0xFF)) := by decide
/-- V-HLT-1. -/
theorem test_hlt : after ((mk [] 11 []).setByte 11 0x01) (fun t => (t.run, t.pcVal)) =
    some (.halted, 11) := by decide

/-! The loader's contract, the printed output, the mnemonic form. -/

/-- The example line of R59, a comment line and a blank one (R46). -/
theorem test_load : loadImage "10000010 # LDI R0,42\n# x\n\n 0\n".toList = .ok [0x82, 0] := by decide
/-- R47: non-binary content; a value above 255. -/
theorem test_load_bad : loadImage "1\n12".toList = .error (.loadErrorAtLine 2) ∧
    loadImage "100000000".toList = .error (.loadErrorAtLine 1) := by decide
/-- R73: decimal digits, no leading zeros, `0` for zero, one line end each. -/
theorem test_output :
    (((mk [] 0 []).emit 0).emit 65025).outputText ['\n'] = "0\n65025\n".toList := by decide
/-- R58. -/
theorem test_asm : asm (.ldi 0 42) = "LDI R0,42" ∧ asm (.mul 0 1) = "MUL R0,R1" := by decide

/-! Witnesses: for each statement with hypotheses, states and operands that meet them, one for each
clause, at a boundary of its range where it has one. -/

theorem witness_StepRunsDecodedInstruction :
    let s := ((mk [] 253 []).setByte 253 0x82).setByte 255 0x05
    s.run = .running ∧ s.pcVal ≤ 253 ∧
      decodeSlot (s.byteAt s.pcVal) (s.byteAt (s.pcVal + 1)) (s.byteAt (s.pcVal + 2)) = .ok (.ldi 0 5) := by
  decide

theorem witness_SlotOutsideMemoryFaults :
    (mk [] 256 []).run = .running ∧ 255 < (mk [] 256 []).pcVal ∧
    (mk [] 255 []).run = .running ∧ (mk [] 255 []).pcVal = 255 ∧
    (mk [] 254 []).run = .running ∧ (mk [] 254 []).pcVal = 254 := by decide

theorem witness_UnknownOpcodeFaults :
    let s := (mk [] 253 []).setByte 253 0xA1
    s.run = .running ∧ s.pcVal ≤ 253 ∧ s.byteAt s.pcVal ∉
      ([0x82, 0x47, 0xA2, 0xA0, 0xA7, 0x45, 0x46, 0x50, 0x11, 0x01] : List Byte) := by decide

theorem witness_StoppedEngineStays : (mk [] 0 []).halt.run ≠ .running ∧
    ((mk [] 0 []).takeFault (.unknownOpcode 0 0)).run ≠ .running := by decide

/-- Running to running, to halted, to faulted; and a state that is not running. -/
theorem witness_EngineTransitions :
    (step (mk [0x47] 0 []) = .next (stepped (mk [0x47] 0 [])) ∧ (mk [0x47] 0 []).run = .running ∧
      (stepped (mk [0x47] 0 [])).run = .running) ∧
    (step (mk [0x01] 0 []) = .next (stepped (mk [0x01] 0 [])) ∧
      (stepped (mk [0x01] 0 [])).run = .halted) ∧
    (step (mk [0x00] 0 []) = .next (stepped (mk [0x00] 0 [])) ∧
      (stepped (mk [0x00] 0 [])).run = faultAt 0 (.unknownOpcode 0 0)) ∧
    (step (mk [0x47] 0 []).halt = .next (stepped (mk [0x47] 0 []).halt) ∧
      (mk [0x47] 0 []).halt.run ≠ .running) :=
  ⟨⟨rfl, by decide⟩, ⟨rfl, by decide⟩, ⟨rfl, by decide⟩, ⟨rfl, by decide⟩⟩

theorem witness_FaultsArePrecise :
    (mk [0x47, 8] 0 []).run = .running ∧
    step (mk [0x47, 8] 0 []) = .next (stepped (mk [0x47, 8] 0 [])) ∧
    (stepped (mk [0x47, 8] 0 [])).run = faultAt 0 (.addressOutOfRange .register 8) :=
  ⟨rfl, rfl, by decide⟩

/-- Running states at the two sides of each condition of the list (R102), and one with no fault. -/
theorem witness_FaultsFollowPriorityList :
    (mk [] 256 []).run = .running ∧
    priorityFault (mk [] 256 []) = some (.addressOutOfRange .memory 256) ∧
    priorityFault (mk [] 254 []) = some (.addressOutOfRange .memory 256) ∧
    priorityFault (mk [] 253 []) = some (.unknownOpcode 0 253) ∧
    priorityFault (mk [0x45, 8] 0 [(7, 0)]) = some (.addressOutOfRange .register 8) ∧
    priorityFault (mk [0xA7, 7, 8] 0 []) = some (.addressOutOfRange .register 8) ∧
    priorityFault (mk [0x45, 0] 0 [(7, 257), (0, 256)]) = some (.stackFault .push 257) ∧
    priorityFault (mk [0x50, 0] 0 [(7, 0)]) = some (.stackFault .call 0) ∧
    priorityFault (mk [0x46, 0] 0 [(7, 256)]) = some (.stackFault .pop 256) ∧
    priorityFault (mk [0x46, 0] 0 [(7, 255)]) = some (.stackFault .pop 255) ∧
    priorityFault (mk [0x46, 7, 255] 0 [(7, 2)]) = some (.stackFault .pop 2) ∧
    priorityFault (mk [0x11] 0 [(7, 255)]) = some (.stackFault .ret 255) ∧
    priorityFault (mk [0x45, 0] 0 [(7, 256), (0, 256)]) = some (.valueOutOfRange 256) ∧
    priorityFault (mk [0x45, 7] 0 [(7, 256)]) = none := by decide

theorem witness_LatchesHoldTheSlot :
    (mk [0x82, 0, 42] 0 []).run = .running ∧
    step (mk [0x82, 0, 42] 0 []) = .next (stepped (mk [0x82, 0, 42] 0 [])) ∧
    ∀ f, (stepped (mk [0x82, 0, 42] 0 [])).run ≠ .faulted f :=
  ⟨rfl, rfl, fun _ h => by
    have hr : (stepped (mk [0x82, 0, 42] 0 [])).run = .running := by decide
    rw [hr] at h
    exact RunState.noConfusion h⟩

theorem witness_LatchesNeverReadBeforeFetch : State.reset.run = .running := rfl

/-- The hypotheses are those of `witness_FaultsArePrecise`; here with the fault of an ALU instruction. -/
theorem witness_AluErrorUnreachable :
    (mk [0xA2, 0, 8] 0 []).run = .running ∧
    step (mk [0xA2, 0, 8] 0 []) = .next (stepped (mk [0xA2, 0, 8] 0 [])) ∧
    (stepped (mk [0xA2, 0, 8] 0 [])).run = faultAt 0 (.addressOutOfRange .register 8) :=
  ⟨rfl, rfl, by decide⟩

theorem witness_PlacedWordRunsNext :
    Memory.wf (mk [1, 2, 3] 253 []).halt.mem = true ∧ (mk [1, 2, 3] 253 []).halt.pcVal ≤ 253 ∧
    decodeTableWord 8 0x11 = some .ret := by decide

/-- A full image, with an address in it; an empty image, with an address after it. -/
theorem witness_ResetLeaves : (List.replicate 256 (1 : Byte)).length ≤ 256 ∧
    255 < (List.replicate 256 (1 : Byte)).length ∧ ([] : List Byte).length ≤ 0 := by
  rw [List.length_replicate]; exact ⟨Nat.le_refl _, Nat.lt_succ_self _, Nat.le_refl _⟩

theorem witness_BootStartsWhatTheLoaderRead :
    loadImage "2".toList = .error (.loadErrorAtLine 1) ∧ loadImage "1".toList = .ok [1] := by decide

/-- A line that is no binary number, and one whose value is 256. -/
theorem witness_MalformedImageFailsLoad :
    (['2'] ∈ splitLines ['1', '\n', '2'] ∧ lineContent ['2'] ≠ [] ∧
      ∃ c ∈ lineContent ['2'], c ≠ '0' ∧ c ≠ '1') ∧
    (let line := ['1', '0', '0', '0', '0', '0', '0', '0', '0']
     line ∈ splitLines line ∧ lineContent line ≠ [] ∧ binaryValue (lineContent line) 0 = some 256) :=
  ⟨⟨by decide, by decide, '2', by decide, by decide⟩, by decide, by decide, by decide⟩

/-- The clauses at the two sides of each bound, on a memory in canonical form. -/
theorem witness_MemReadRule_MemWriteRule :
    Memory.wf State.reset.mem = true ∧ memRead State.reset 255 = .ok 0 ∧
    memRead State.reset 256 = .error (.addressOutOfRange .memory 256) ∧
    memWrite State.reset 256 255 = .error (.addressOutOfRange .memory 256) ∧
    memWrite State.reset 255 256 = .error (.valueOutOfRange 256) ∧
    memWrite State.reset 255 255 = .ok (State.reset.setByte 255 255) := by decide

/-- A cycle that is no PUSH or CALL, and one that is, with an address that is not the one stored to. -/
theorem witness_OnlyPushAndCallWriteMemory :
    (step (mk [0x46] 0 []) = .next (stepped (mk [0x46] 0 [])) ∧
      (mk [0x46] 0 []).byteAt (mk [0x46] 0 []).pcVal = 0x46) ∧
    (step (mk [0x45] 0 []) = .next (stepped (mk [0x45] 0 [])) ∧ 0xF4 + 1 ≠ (mk [0x45] 0 []).spVal) :=
  ⟨⟨rfl, by decide⟩, ⟨rfl, by decide⟩⟩

/-- A PUSH onto the next instruction, and `CALL R7`, which fetches the byte it has just pushed. -/
theorem witness_StoreSeenByNextFetch :
    (let s := mk [0x45, 0] 0 [(7, 3), (0, 0x11)]
     let t := did (.push 0) s
     Memory.wf s.mem = true ∧ s.run = .running ∧ t.run = .running ∧ t.pcVal + 1 = s.spVal ∧
       exec (.push (regByte 0)) s = .next t ∧
       fetch t = .ok (t.latch (t.byteAt 2) (t.byteAt 3) (t.byteAt 4))) ∧
    (let s := mk [0x50, 7] 0 []
     let t := did (.call 7) s
     Memory.wf s.mem = true ∧ s.run = .running ∧ t.run = .running ∧ t.pcVal + 1 = s.spVal ∧
       exec (.call (regByte 7)) s = .next t ∧
       fetch t = .ok (t.latch (t.byteAt 0xF3) (t.byteAt 0xF4) (t.byteAt 0xF5))) :=
  ⟨⟨by decide, rfl, rfl, by decide, rfl, by decide⟩, ⟨by decide, rfl, rfl, by decide, rfl, by decide⟩⟩

/-- LDI, PRN, PUSH, POP, CALL: a byte on each side of the bound of the register index. -/
theorem witness_register_operand : 7 < (8 : Byte).toNat ∧ (7 : Byte) = regByte 7 ∧
    (mk [] 253 []).pcVal ≤ 253 := by decide

/-- MUL, ADD, CMP: the first bad; the second bad and the first good; both good. -/
theorem witness_register_operands : 7 < (8 : Byte).toNat ∧
    ((7 : Byte).toNat ≤ 7 ∧ 7 < (8 : Byte).toNat) ∧ (0 : Byte) = regByte 0 ∧ (7 : Byte) = regByte 7 := by
  decide

theorem witness_OutputOnlyGrowsByPrn :
    runFor 1 (mk [0x47] 0 []) = .next (stepped (mk [0x47] 0 [])) ∧
    (step (mk [0x46] 0 []) = .next (stepped (mk [0x46] 0 [])) ∧
      (mk [0x46] 0 []).byteAt (mk [0x46] 0 []).pcVal ≠ 0x47) := ⟨rfl, rfl, by decide⟩

theorem witness_OnlyCmpWritesFlags :
    step (mk [0x46] 0 []) = .next (stepped (mk [0x46] 0 [])) ∧
      (mk [0x46] 0 []).byteAt (mk [0x46] 0 []).pcVal ≠ 0xA7 := ⟨rfl, by decide⟩

/-- PUSH: `SP` 0 and 257 fault; 1 and 256 do not; a value of 256 faults, one of 255 does not. -/
theorem witness_PushRule :
    (mk [] 0 [(7, 0)]).spVal = 0 ∧ 256 < (mk [] 0 [(7, 257)]).spVal ∧
    (let s := mk [] 253 [(7, 256), (0, 256)]
     1 ≤ s.spVal ∧ s.spVal ≤ 256 ∧ (0 : Fin 8) ≠ 7 ∧ 255 < s.regVal 0) ∧
    (let s := mk [] 253 [(7, 1), (0, 255)]
     1 ≤ s.spVal ∧ s.spVal ≤ 256 ∧ ((0 : Fin 8) ≠ 7 → s.regVal 0 ≤ 255) ∧ Memory.wf s.mem = true ∧
       pushSlot .push s = .ok 0 ∧ s.pcVal ≤ 253) := by decide

/-- POP: `SP` 256 and 255 fault, 254 does not; `POP R7` of 0xFF faults, of 0xFE does not. -/
theorem witness_PopRule :
    255 < (mk [] 0 [(7, 256)]).spVal ∧
    (let s := mk [] 0 [(7, 255)]
     255 < (if (0 : Fin 8) = 7 then (s.byteAt s.spVal).toNat else s.spVal) + 1) ∧
    (let s := (mk [] 0 [(7, 0xF0)]).setByte 0xF0 0xFF
     255 < (if (7 : Fin 8) = 7 then (s.byteAt s.spVal).toNat else s.spVal) + 1) ∧
    (let s := mk [] 253 [(7, 254)]
     s.spVal ≤ 255 ∧ (if (0 : Fin 8) = 7 then (s.byteAt s.spVal).toNat else s.spVal) + 1 ≤ 255 ∧
       s.pcVal ≤ 253) ∧
    (let s := (mk [] 0 [(7, 0xFF)]).setByte 0xFF 0xFE
     s.spVal ≤ 255 ∧ (if (7 : Fin 8) = 7 then (s.byteAt s.spVal).toNat else s.spVal) + 1 ≤ 255) := by
  decide

theorem witness_StackFaultExactly :
    (mk [] 0 [(7, 0)]).run = .running ∧ (mk [] 0 [(7, 0)]).spVal = 0 ∧
    255 < (mk [] 0 [(7, 257)]).spVal - 1 ∧ ¬ 255 < (mk [] 0 [(7, 256)]).spVal - 1 ∧
    255 < (mk [] 0 [(7, 255)]).spVal + 1 := by decide

theorem witness_PushPopRoundTrip :
    let s := mk [] 0 [(7, 255), (0, 255)]
    let t := did (.push 0) s
    Memory.wf s.mem = true ∧ s.run = .running ∧ (0 : Fin 8) ≠ 7 ∧ (1 : Fin 8) ≠ 7 ∧ s.spVal ≤ 255 ∧
      exec (.push (regByte 0)) s = .next t ∧ t.run = .running :=
  ⟨by decide, rfl, by decide, by decide, by decide, rfl, rfl⟩

/-- CALL: `SP` 0 and 257 fault, 1 and 256 do not. -/
theorem witness_CallRule :
    (mk [] 253 []).pcVal ≤ 253 ∧ (mk [] 253 [(7, 0)]).spVal = 0 ∧ 256 < (mk [] 253 [(7, 257)]).spVal ∧
    (let s := mk [] 253 [(7, 1)]
     1 ≤ s.spVal ∧ s.spVal ≤ 256 ∧ Memory.wf s.mem = true ∧ pushSlot .call s = .ok 0) ∧
    (let s := mk [] 253 [(7, 256)]
     1 ≤ s.spVal ∧ s.spVal ≤ 256 ∧ pushSlot .call s = .ok 255) := by decide

/-- RET: `SP` 256 and 255 fault, 254 does not. -/
theorem witness_RetRule :
    255 < (mk [] 0 [(7, 256)]).spVal ∧ 255 < (mk [] 0 [(7, 255)]).spVal + 1 ∧
    (mk [] 0 [(7, 254)]).spVal + 1 ≤ 255 := by decide

/-- A subroutine of one RET: the state after the CALL is already the state at the RET. -/
theorem witness_CallReturnLaw :
    let s := mk [0x50, 1] 253 [(7, 255), (1, 11)]
    let t := did (.call 1) s
    Memory.wf s.mem = true ∧ s.run = .running ∧ s.pcVal ≤ 253 ∧ s.spVal ≤ 255 ∧
      exec (.call (regByte 1)) s = .next t ∧ t.run = .running ∧ (1 : Fin 8) ≠ 7 :=
  ⟨by decide, rfl, by decide, by decide, rfl, rfl, by decide⟩

/-- A cycle that advances from 253 to 256; one that runs RET; one that runs CALL. -/
theorem witness_PcDoesNotWrap :
    (let s := (mk [] 253 []).setByte 253 0x82
     s.run = .running ∧ s.pcVal ≤ 253 ∧ step s = .next (stepped s) ∧ s.byteAt s.pcVal ≠ 0x50 ∧
       s.byteAt s.pcVal ≠ 0x11 ∧ (stepped s).pcVal = 256) ∧
    (let s := (mk [] 253 []).setByte 253 0x11
     s.run = .running ∧ s.pcVal ≤ 253 ∧ step s = .next (stepped s) ∧ s.byteAt s.pcVal ≠ 0x50) :=
  ⟨⟨rfl, by decide, rfl, by decide, by decide, by decide⟩, ⟨rfl, by decide, rfl, by decide⟩⟩

/-- A state that meets the invariant and a cycle from it, into a fault. -/
theorem witness_StepKeepsInv :
    Inv (mk [0x47, 8] 0 []) ∧ step (mk [0x47, 8] 0 []) = .next (stepped (mk [0x47, 8] 0 [])) :=
  ⟨⟨by decide, by decide, fun f h => by
    have hr : (mk [0x47, 8] 0 []).run = .running := rfl
    rw [hr] at h
    exact RunState.noConfusion h⟩, rfl⟩

theorem witness_WidthNeverChanges :
    runFor 1 (mk [0x47] 0 []) = .next (stepped (mk [0x47] 0 [])) := rfl

end Sys2Proof.Machine.Tests
end

section
/-! The width parameter along runs (R7): one cycle keeps it, so every run does. -/

namespace Sys2Proof.Machine

/-- Every meaning keeps `W`, whether it completes or takes a fault. -/
theorem exec_next_cfg {i : Instr} {s t : State} (h : exec i s = .next t) : t.cfg = s.cfg := by
  rcases exec_next_summary h with ⟨c, rfl⟩ | ⟨-, -, -, -, -, hcfg⟩
  · exact takeFault_cfg s c
  · exact hcfg

/-- Every cycle keeps `W` (R7): stopped, faulting in the fetch or at dispatch, or executing. -/
theorem step_next_cfg {s t : State} (h : step s = .next t) : t.cfg = s.cfg := by
  rcases step_cases h with ⟨-, rfl⟩ | ⟨-, -, rfl⟩ | ⟨-, -, -, rfl⟩ | ⟨-, -, i, -, hexec⟩
  · rfl
  · exact takeFault_cfg s _
  · exact takeFault_cfg s.fetched _
  · exact (exec_next_cfg hexec).trans (latch_cfg s _ _ _)

/-- Every cycle answers a next state (R91, R100): a fault is one too. -/
theorem step_answers_next (s : State) : ∃ t, step s = .next t := by
  by_cases hr : s.run = .running
  · by_cases hp : 253 < s.pcVal
    · exact ⟨_, step_slot_fault hr hp⟩
    have hp : s.pcVal ≤ 253 := by omega
    cases ho : isOpcode (s.byteAt s.pcVal) with
    | false => exact ⟨_, step_unknown hr hp ho⟩
    | true =>
      obtain ⟨i, hd⟩ := decodeSlot_of_isOpcode (s.byteAt (s.pcVal + 1)) (s.byteAt (s.pcVal + 2)) ho
      rw [step_decoded hr hp hd]
      exact exec_answers_next i s.fetched
  · exact ⟨s, step_stopped hr⟩

/-- Settles O45: each cycle keeps `W`, and "same `W`" is reflexive and transitive, so it holds along
every run. -/
theorem widthNeverChanges : Obligations.WidthNeverChanges :=
  runFor_induction (R := fun s t => t.cfg = s.cfg) (fun _ => rfl)
    (fun _ _ _ hstep hrest => hrest.trans (step_next_cfg hstep)) step_answers_next

end Sys2Proof.Machine
end

section
/-! What one cycle may write of the output, `fl`, memory and `pc` (10_state.md), each write tied to the
opcode byte that makes it. The facts about every cycle and every run below are read off this frame. -/

namespace Sys2Proof.Machine

/-- The opcode byte of a decoded slot is the opcode of the instruction it holds (R53). -/
theorem opcode_of_decodeSlot {op a b : Byte} {i : Instr} (h : decodeSlot op a b = .ok i) :
    i.opcode = op := by
  rcases decodeSlot_cases h with ⟨rfl, rfl⟩ | ⟨rfl, rfl⟩ | ⟨rfl, rfl⟩ | ⟨rfl, rfl⟩ | ⟨rfl, rfl⟩ |
    ⟨rfl, rfl⟩ | ⟨rfl, rfl⟩ | ⟨rfl, rfl⟩ | ⟨rfl, rfl⟩ | ⟨rfl, rfl⟩ <;> rfl

/-- A comparison leaves one of the legal values of `fl` (R22, R78). -/
theorem legalFlags_compareFlags {w : Nat} (a b : Word w) : legalFlags (compareFlags a b) = true := by
  unfold compareFlags
  split
  · decide
  · split <;> decide

/-- What a cycle with opcode byte `op` may do to the output, `fl`, memory and `pc`: PRN emits (R28), CMP
writes `fl` (R23), PUSH and CALL store one byte below `SP` (R33), and `pc` advances by a length except
under RET and CALL (R21, R89). -/
structure CycleFrame (op : Byte) (s t : State) : Prop where
  out : t.outVals = s.outVals ∨ (op = 0x47 ∧ ∃ v, t.outVals = s.outVals ++ [v])
  fl : t.fl = s.fl ∨ (op = 0xA7 ∧ legalFlags t.fl = true)
  mem : t.mem = s.mem ∨ ((op = 0x45 ∨ op = 0x50) ∧ 1 ≤ s.spVal ∧ s.spVal ≤ 256 ∧
    ∃ v, t.mem = Memory.write s.mem (s.spVal - 1) v)
  pc : t.pcVal = s.pcVal ∨ t.pcVal = (s.pcVal + 2) % 2 ^ s.cfg.W ∨
    t.pcVal = (s.pcVal + 3) % 2 ^ s.cfg.W ∨ (op = 0x11 ∧ t.pcVal ≤ 255) ∨ op = 0x50

theorem cycleFrame_refl (op : Byte) (s : State) : CycleFrame op s s :=
  ⟨.inl rfl, .inl rfl, .inl rfl, .inl rfl⟩

/-- A fault writes none of the four parts (R68). -/
theorem cycleFrame_takeFault (op : Byte) (s : State) (c : FaultCause) :
    CycleFrame op s (s.takeFault c) :=
  ⟨.inl rfl, .inl rfl, .inl rfl, .inl rfl⟩

theorem cycleFrame_halt (op : Byte) (s : State) : CycleFrame op s s.halt :=
  ⟨.inl rfl, .inl rfl, .inl rfl, .inl rfl⟩

/-- LDI, MUL and ADD complete by a register write and an advance (R71, R75, R76). -/
theorem cycleFrame_setReg_advance (op : Byte) (s : State) (d : Fin 8) (v : Nat) :
    CycleFrame op s ((s.setReg d v).advance 3) :=
  ⟨.inl rfl, .inl rfl, .inl rfl, .inr (.inr (.inl (setPc_pcVal _ _)))⟩

/-- Every meaning stays within the frame of its opcode. -/
theorem exec_cycleFrame {i : Instr} {s t : State} (h : exec i s = .next t) :
    CycleFrame i.opcode s t := by
  cases i with
  | ldi r imm =>
    rcases execLdi_next h with ⟨_, -, rfl⟩ | ⟨-, rfl⟩
    · exact cycleFrame_setReg_advance ..
    · exact cycleFrame_takeFault ..
  | prn r =>
    rcases execPrn_next h with ⟨_, -, rfl⟩ | ⟨-, rfl⟩
    · exact ⟨.inr ⟨rfl, _, emit_outVals s _⟩, .inl rfl, .inl rfl, .inr (.inl (setPc_pcVal _ _))⟩
    · exact cycleFrame_takeFault ..
  | mul a b =>
    rcases execMul_next h with ⟨_, _, -, -, rfl⟩ | ⟨-, rfl⟩ | ⟨-, -, rfl⟩
    · exact cycleFrame_setReg_advance ..
    all_goals exact cycleFrame_takeFault ..
  | add a b =>
    rcases execAdd_next h with ⟨_, _, -, -, rfl⟩ | ⟨-, rfl⟩ | ⟨-, -, rfl⟩
    · exact cycleFrame_setReg_advance ..
    all_goals exact cycleFrame_takeFault ..
  | cmp a b =>
    rcases execCmp_next h with ⟨_, _, -, -, rfl⟩ | ⟨-, rfl⟩ | ⟨-, -, rfl⟩
    · exact ⟨.inl rfl, .inr ⟨rfl, legalFlags_compareFlags _ _⟩, .inl rfl,
        .inr (.inr (.inl (setPc_pcVal _ _)))⟩
    all_goals exact cycleFrame_takeFault ..
  | push r =>
    rcases execPush_next h with ⟨_, -, hlo, hhi, -, rfl⟩ | ⟨-, rfl⟩ | ⟨-, -, rfl⟩ |
      ⟨_, -, -, -, -, -, rfl⟩
    · exact ⟨.inl rfl, .inl rfl, .inr ⟨.inl rfl, hlo, hhi, _, rfl⟩, .inr (.inl (setPc_pcVal _ _))⟩
    all_goals exact cycleFrame_takeFault ..
  | pop r =>
    rcases execPop_next h with ⟨_, -, -, -, rfl⟩ | ⟨-, rfl⟩ | ⟨_, -, -, rfl⟩
    · exact ⟨.inl rfl, .inl rfl, .inl rfl, .inr (.inl (setPc_pcVal _ _))⟩
    all_goals exact cycleFrame_takeFault ..
  | call r =>
    rcases execCall_next h with ⟨_, -, hlo, hhi, -, rfl⟩ | ⟨-, rfl⟩ | ⟨-, -, rfl⟩ | ⟨-, rfl⟩
    · exact ⟨.inl rfl, .inl rfl, .inr ⟨.inr rfl, hlo, hhi, _, rfl⟩, .inr (.inr (.inr (.inr rfl)))⟩
    all_goals exact cycleFrame_takeFault ..
  | ret =>
    rcases execRet_next h with ⟨-, rfl⟩ | ⟨-, rfl⟩
    · have hpop : (s.byteAt s.spVal).toNat % 2 ^ s.cfg.W ≤ 255 :=
        (Nat.mod_le _ _).trans (Nat.le_of_lt_succ (s.byteAt s.spVal).isLt)
      exact ⟨.inl rfl, .inl rfl, .inl rfl,
        .inr (.inr (.inr (.inl ⟨rfl, (setPc_pcVal _ _).trans_le hpop⟩)))⟩
    · exact cycleFrame_takeFault ..
  | hlt =>
    rw [execHlt_next h]
    exact cycleFrame_halt ..

/-- Every cycle stays within the frame of the byte at `pc`; latching the slot touches no part of it. -/
theorem step_cycleFrame {s t : State} (h : step s = .next t) : CycleFrame (s.byteAt s.pcVal) s t := by
  rcases step_cases h with ⟨-, rfl⟩ | ⟨-, -, rfl⟩ | ⟨-, -, -, rfl⟩ | ⟨-, -, i, hd, hexec⟩
  · exact cycleFrame_refl ..
  · exact cycleFrame_takeFault ..
  · obtain ⟨hout, hfl, hmem, hpc⟩ := cycleFrame_takeFault (s.byteAt s.pcVal) s.fetched
      (.unknownOpcode (s.byteAt s.pcVal) s.pcVal)
    exact ⟨hout, hfl, hmem, hpc⟩
  · obtain ⟨hout, hfl, hmem, hpc⟩ := exec_cycleFrame hexec
    rw [opcode_of_decodeSlot hd] at hout hfl hmem hpc
    exact ⟨hout, hfl, hmem, hpc⟩

/-! The output. -/

/-- One cycle appends at most one value to the output (R28, R72). -/
theorem step_outVals_extends {s t : State} (h : step s = .next t) :
    s.outVals <+: t.outVals ∧ t.outVals.length ≤ s.outVals.length + 1 := by
  rcases (step_cycleFrame h).out with hout | ⟨-, v, hout⟩
  · rw [hout]
    exact ⟨List.prefix_rfl, Nat.le_succ _⟩
  · rw [hout]
    exact ⟨List.prefix_append _ _, by simp⟩

/-- `n` cycles append at most `n` values to the output. -/
theorem runFor_outVals_extends (n : Nat) (s t : State) (h : runFor n s = .next t) :
    s.outVals <+: t.outVals ∧ t.outVals.length ≤ s.outVals.length + n := by
  induction n generalizing s with
  | zero =>
    injection h with h
    subst h
    exact ⟨List.prefix_rfl, Nat.le_refl _⟩
  | succ n ih =>
    obtain ⟨u, hu⟩ := step_answers_next s
    rw [runFor_succ n s u hu] at h
    obtain ⟨hfirst, hlen⟩ := step_outVals_extends hu
    obtain ⟨hrest, hlen'⟩ := ih u h
    exact ⟨hfirst.trans hrest, by omega⟩

/-- Settles O26: the growth by induction on the number of cycles, the rest from the frame of one cycle. -/
theorem outputOnlyGrowsByPrn : Obligations.OutputOnlyGrowsByPrn :=
  ⟨runFor_outVals_extends, fun _ _ h hop =>
    (step_cycleFrame h).out.resolve_right fun hprn => hop hprn.1⟩

/-! The flags. -/

/-- Settles O33: the frame of a cycle lets CMP alone write `fl`. -/
theorem onlyCmpWritesFlags : Obligations.OnlyCmpWritesFlags := fun _ _ h hop =>
  (step_cycleFrame h).fl.resolve_right fun hcmp => hop hcmp.1

/-! The program counter. -/

/-- Where a cycle that fetched leaves `pc`: from 253 an advance reaches 256, which every width holds. -/
theorem step_pcVal_cases {s t : State} (hp : s.pcVal ≤ 253) (h : step s = .next t) :
    (t.pcVal = s.pcVal ∨ t.pcVal = s.pcVal + 2 ∨ t.pcVal = s.pcVal + 3) ∨
      (s.byteAt s.pcVal = 0x11 ∧ t.pcVal ≤ 255) ∨ s.byteAt s.pcVal = 0x50 := by
  have hpc := (step_cycleFrame h).pc
  rw [mod_width_of_lt s.cfg (s.pcVal + 2) (by omega),
    mod_width_of_lt s.cfg (s.pcVal + 3) (by omega)] at hpc
  simpa only [or_assoc] using hpc

/-- Settles O43: `pc` stays, advances by 2 or 3, or is a byte that RET popped. -/
theorem pcDoesNotWrap : Obligations.PcDoesNotWrap := by
  intro s t _ hp h
  rcases step_pcVal_cases hp h with hadv | ⟨hret, hbyte⟩ | hcall
  · exact ⟨fun _ => by omega, fun _ _ => hadv⟩
  · exact ⟨fun _ => by omega, fun _ hne => absurd hret hne⟩
  · exact ⟨fun hne => absurd hcall hne, fun hne _ => absurd hcall hne⟩

/-! The latches. -/

/-- Settles O8: a meaning that does not fault keeps the slot that the fetch latched. -/
theorem latchesHoldTheSlot : Obligations.LatchesHoldTheSlot := by
  intro s t hr h hnf
  rcases step_cases h with ⟨hstop, -⟩ | ⟨-, -, rfl⟩ | ⟨-, -, -, rfl⟩ | ⟨-, -, i, -, hexec⟩
  · exact absurd hr hstop
  · exact absurd (takeFault_run ..) (hnf _)
  · exact absurd (takeFault_run ..) (hnf _)
  · rcases exec_next_summary hexec with ⟨c, rfl⟩ | ⟨-, -, hir, hopA, hopB, -⟩
    · exact absurd (takeFault_run ..) (hnf _)
    · exact ⟨hir, hopA, hopB⟩

/-- The fetch overwrites all three latches and reads none of them (R63, R64). -/
theorem fetch_latch (s : State) (a b c : Byte) : fetch (s.latch a b c) = fetch s := rfl

/-- Settles O9: the fetch answers the same, and a slot fault draws new latches (log entry 3). -/
theorem latchesNeverReadBeforeFetch : Obligations.LatchesNeverReadBeforeFetch := by
  intro s a b c hr
  rw [step_running hr, step_running ((latch_run ..).trans hr)]
  unfold runCycle
  rw [fetch_latch]
  cases fetch s <;> rfl

end Sys2Proof.Machine
end

section
/-! `fl` is never read (R23, R89): a relation between outcomes that differ in `fl` alone, which every
operation on the state keeps. -/

namespace Sys2Proof.Machine

/-- Two results of a handler's checks that differ in `fl` alone: the same fault, or two states that are
equal but for `fl`. -/
inductive AgreeButFl : Except FaultCause State → Except FaultCause State → Prop where
  | error (c : FaultCause) : AgreeButFl (.error c) (.error c)
  | ok (t : State) (u : BitVec 8) : AgreeButFl (.ok t) (.ok (t.setFl u))

/-- Two next states that differ in `fl` alone. -/
def NextButFl (o o' : Host.Outcome State Fault Refusal) : Prop :=
  ∃ (t : State) (u : BitVec 8), o = .next t ∧ o' = .next (t.setFl u)

/-- A check that does not look at `fl`, followed by continuations that agree. -/
theorem agreeButFl_bind {α : Type} (x : Except FaultCause α) {f g : α → Except FaultCause State}
    (hfg : ∀ a, AgreeButFl (f a) (g a)) : AgreeButFl (x >>= f) (x >>= g) := by
  cases x with
  | error c => exact .error c
  | ok a => exact hfg a

/-- Agreeing states, followed by an update that keeps the agreement. -/
theorem agreeButFl_bind_state {x y : Except FaultCause State} {f : State → Except FaultCause State}
    (hxy : AgreeButFl x y) (hf : ∀ t u, AgreeButFl (f t) (f (t.setFl u))) :
    AgreeButFl (x >>= f) (y >>= f) := by
  cases hxy with
  | error c => exact .error c
  | ok t u => exact hf t u

theorem memWrite_setFl (s : State) (v : BitVec 8) (addr val : Nat) :
    AgreeButFl (memWrite s addr val) (memWrite (s.setFl v) addr val) := by
  unfold memWrite
  split
  · exact .error _
  · split
    · exact .error _
    · exact .ok _ v

/-- The ALU's effect lands in a register, or in `fl` and hides what `fl` held before. -/
theorem aluInstr_setFl (op : AluOp) (a b : Byte) (s : State) (v : BitVec 8) :
    AgreeButFl (aluInstr op a b s) (aluInstr op a b (s.setFl v)) := by
  refine agreeButFl_bind (regOperands a b) fun p => agreeButFl_bind (alu op _ _) fun e => ?_
  cases e with
  | register w => exact .ok _ v
  | flags w => exact .ok _ w

theorem conclude_setFl {s : State} {v : BitVec 8} {r r' : Except FaultCause State}
    (h : AgreeButFl r r') : NextButFl (conclude s r) (conclude (s.setFl v) r') := by
  cases h with
  | error c => exact ⟨s.takeFault c, v, rfl, rfl⟩
  | ok t u => exact ⟨t, u, rfl, rfl⟩

/-- No meaning reads `fl` (R89). -/
theorem exec_setFl (i : Instr) (s : State) (v : BitVec 8) :
    NextButFl (exec i s) (exec i (s.setFl v)) := by
  cases i with
  | ldi r imm => exact conclude_setFl (agreeButFl_bind (regOperand r) fun _ => .ok _ v)
  | prn r => exact conclude_setFl (agreeButFl_bind (regOperand r) fun _ => .ok _ v)
  | mul a b => exact conclude_setFl (aluInstr_setFl .mul a b s v)
  | add a b => exact conclude_setFl (aluInstr_setFl .add a b s v)
  | cmp a b => exact conclude_setFl (aluInstr_setFl .cmp a b s v)
  | push r =>
    exact conclude_setFl (agreeButFl_bind (regOperand r) fun i =>
      agreeButFl_bind (pushSlot .push s) fun sp1 =>
        agreeButFl_bind_state (memWrite_setFl (s.setSp sp1) v sp1 (s.regValAfterSp sp1 i))
          fun _ u => .ok _ u)
  | pop r =>
    exact conclude_setFl (agreeButFl_bind (regOperand r) fun d =>
      agreeButFl_bind (popSlot .pop s) fun sp0 => agreeButFl_bind (memRead s sp0) fun x =>
        agreeButFl_bind (checkSp .pop s _) fun _ => .ok _ v)
  | call r =>
    exact conclude_setFl (agreeButFl_bind (regOperand r) fun i =>
      agreeButFl_bind (pushSlot .call s) fun sp1 =>
        agreeButFl_bind_state (memWrite_setFl (s.setSp sp1) v sp1 (s.pcVal + 2))
          fun _ u => .ok _ u)
  | ret =>
    exact conclude_setFl (agreeButFl_bind (popSlot .ret s) fun sp0 =>
      agreeButFl_bind (memRead s sp0) fun x => agreeButFl_bind (checkSp .ret s _) fun _ => .ok _ v)
  | hlt => exact ⟨s.halt, v, rfl, rfl⟩

/-- No cycle reads `fl`: the same fetch, the same decode, and a meaning that does not read it. -/
theorem step_setFl (s : State) (v : BitVec 8) : NextButFl (step s) (step (s.setFl v)) := by
  by_cases hr : s.run = .running
  · have hr' : (s.setFl v).run = .running := hr
    by_cases hp : 253 < s.pcVal
    · exact ⟨_, v, step_slot_fault hr hp, step_slot_fault hr' hp⟩
    have hp : s.pcVal ≤ 253 := by omega
    cases ho : isOpcode (s.byteAt s.pcVal) with
    | false => exact ⟨_, v, step_unknown hr hp ho, step_unknown hr' hp ho⟩
    | true =>
      obtain ⟨i, hd⟩ := decodeSlot_of_isOpcode (s.byteAt (s.pcVal + 1)) (s.byteAt (s.pcVal + 2)) ho
      rw [step_decoded hr hp hd, step_decoded hr' hp hd]
      exact exec_setFl i s.fetched v
  · exact ⟨s, v, step_stopped hr, step_stopped hr⟩

/-- Settles O34: two runs stay equal but for `fl`, by induction on the number of cycles. -/
theorem flagsNeverInfluence : Obligations.FlagsNeverInfluence := by
  intro n
  induction n with
  | zero => exact fun s v => ⟨s, v, rfl, rfl⟩
  | succ n ih =>
    intro s v
    obtain ⟨t, u, hs, hs'⟩ := step_setFl s v
    rw [runFor_succ n s t hs, runFor_succ n _ _ hs']
    exact ih t u

end Sys2Proof.Machine
end

section
/-! The invariant (R22, R45, R92 to R99): the frame of a cycle keeps the canonical memory and the legal
flags, and every fault that a cycle takes is true of the state it is taken in. -/

namespace Sys2Proof.Machine

/-- A cycle stores inside the array only, so the canonical form stays (R33, R45). -/
theorem CycleFrame.mem_wf {op : Byte} {s t : State} (h : CycleFrame op s t)
    (hw : Memory.wf s.mem = true) : Memory.wf t.mem = true := by
  rcases h.mem with hmem | ⟨-, hlo, hhi, v, hmem⟩
  · rw [hmem]; exact hw
  · rw [hmem]; exact write_wf v (by omega) s.mem hw

theorem CycleFrame.legal_fl {op : Byte} {s t : State} (h : CycleFrame op s t)
    (hl : legalFlags s.fl = true) : legalFlags t.fl = true := by
  rcases h.fl with hfl | ⟨-, hfl⟩
  · rw [hfl]; exact hl
  · exact hfl

/-- Taking a fault changes nothing that a fault record speaks of (R68). -/
theorem holdsIn_takeFault {s : State} {c c' : FaultCause} (h : c.holdsIn s) :
    c.holdsIn (s.takeFault c') := by
  cases c with
  | addressOutOfRange space index => cases space <;> exact h
  | _ => exact h

/-- The fault of a slot that leaves memory names the first address outside (R63, R64, R93). -/
theorem slotFault_holdsIn {s : State} (hp : 253 < s.pcVal) :
    (FaultCause.addressOutOfRange .memory (if 255 < s.pcVal then s.pcVal else 256)).holdsIn s := by
  simp only [FaultCause.holdsIn]
  split <;> omega

/-- PUSH and CALL fault where the decremented `SP` leaves memory (R83, R85, R86). -/
theorem pushSlotFault_holdsIn {s : State} {op : StackOp} (hp : s.pcVal ≤ 253)
    (hop : s.byteAt s.pcVal = op.opcode) (hpush : op = .push ∨ op = .call)
    (hsp : s.spVal = 0 ∨ 256 < s.spVal) : (FaultCause.stackFault op s.spVal).holdsIn s :=
  ⟨hp, rfl, hop, .inl ⟨hpush, hsp⟩⟩

/-- RET faults on `SP` at 255 or above (R85, R87). -/
theorem retFault_holdsIn {s : State} (hp : s.pcVal ≤ 253) (hop : s.byteAt s.pcVal = 0x11)
    (hsp : 254 < s.spVal) : (FaultCause.stackFault .ret s.spVal).holdsIn s :=
  ⟨hp, rfl, hop, .inr (.inl ⟨.inr rfl, hsp⟩)⟩

/-- PUSH faults on a register above 255, which the slot names (R83, R96). -/
theorem pushValueFault_holdsIn {s : State} {i : Fin 8} (hp : s.pcVal ≤ 253)
    (hop : s.byteAt s.pcVal = 0x45) (hi : s.byteAt (s.pcVal + 1) = regByte i)
    (hval : 255 < s.regVal i) : (FaultCause.valueOutOfRange (s.regVal i)).holdsIn s :=
  ⟨hp, hop, hval, i, hi, rfl⟩

/-- POP faults on `SP` at 255 or above, or under `POP R7` on a popped 255 (R84, R85). -/
theorem popFault_holdsIn {s : State} {d : Fin 8} (hp : s.pcVal ≤ 253)
    (hop : s.byteAt s.pcVal = 0x46) (hd : s.byteAt (s.pcVal + 1) = regByte d)
    (h : 255 < s.spVal ∨
      (s.spVal ≤ 255 ∧ 254 < (if d = 7 then (s.byteAt s.spVal).toNat else s.spVal))) :
    (FaultCause.stackFault .pop s.spVal).holdsIn s := by
  refine ⟨hp, rfl, hop, .inr ?_⟩
  by_cases h7 : d = 7
  · subst h7
    rcases h with hsp | ⟨-, hbyte⟩
    · exact .inl ⟨.inl rfl, by omega⟩
    · have hlt := (s.byteAt s.spVal).isLt
      exact .inr ⟨rfl, hd, BitVec.eq_of_toNat_eq (by rw [if_pos rfl] at hbyte; simp; omega)⟩
  · rw [if_neg h7] at h
    exact .inl ⟨.inl rfl, by omega⟩

/-- A bad first operand byte is a true fault of the register space (R50, R94). -/
theorem badReg_opA_holdsIn {s : State} (hp : s.pcVal ≤ 253)
    (hbad : 7 < (s.byteAt (s.pcVal + 1)).toNat) : (badReg (s.byteAt (s.pcVal + 1))).holdsIn s :=
  ⟨hp, hbad, .inl rfl⟩

/-- A bad second operand byte is a true fault of the register space (R69, R94). -/
theorem badReg_opB_holdsIn {s : State} (hp : s.pcVal ≤ 253)
    (hbad : 7 < (s.byteAt (s.pcVal + 2)).toNat) : (badReg (s.byteAt (s.pcVal + 2))).holdsIn s :=
  ⟨hp, hbad, .inr rfl⟩

/-- A meaning run on the slot at `pc` takes a fault whose cause holds, or it does not fault. -/
theorem exec_fault_holdsIn {i : Instr} {s t : State} (hp : s.pcVal ≤ 253)
    (hd : decodeSlot (s.byteAt s.pcVal) (s.byteAt (s.pcVal + 1)) (s.byteAt (s.pcVal + 2)) = .ok i)
    (h : exec i s = .next t) :
    (∃ c, c.holdsIn s ∧ t = s.takeFault c) ∨ t.run = s.run ∨ t.run = .halted := by
  rcases decodeSlot_cases hd with ⟨-, rfl⟩ | ⟨-, rfl⟩ | ⟨-, rfl⟩ | ⟨-, rfl⟩ | ⟨-, rfl⟩ | ⟨hop, rfl⟩ |
    ⟨hop, rfl⟩ | ⟨hop, rfl⟩ | ⟨hop, rfl⟩ | ⟨-, rfl⟩
  · -- LDI
    rcases execLdi_next h with ⟨_, -, rfl⟩ | ⟨hbad, rfl⟩
    · exact .inr (.inl rfl)
    · exact .inl ⟨_, badReg_opA_holdsIn hp hbad, rfl⟩
  · -- PRN
    rcases execPrn_next h with ⟨_, -, rfl⟩ | ⟨hbad, rfl⟩
    · exact .inr (.inl rfl)
    · exact .inl ⟨_, badReg_opA_holdsIn hp hbad, rfl⟩
  · -- MUL
    rcases execMul_next h with ⟨_, _, -, -, rfl⟩ | ⟨hbad, rfl⟩ | ⟨-, hbad, rfl⟩
    · exact .inr (.inl rfl)
    · exact .inl ⟨_, badReg_opA_holdsIn hp hbad, rfl⟩
    · exact .inl ⟨_, badReg_opB_holdsIn hp hbad, rfl⟩
  · -- ADD
    rcases execAdd_next h with ⟨_, _, -, -, rfl⟩ | ⟨hbad, rfl⟩ | ⟨-, hbad, rfl⟩
    · exact .inr (.inl rfl)
    · exact .inl ⟨_, badReg_opA_holdsIn hp hbad, rfl⟩
    · exact .inl ⟨_, badReg_opB_holdsIn hp hbad, rfl⟩
  · -- CMP
    rcases execCmp_next h with ⟨_, _, -, -, rfl⟩ | ⟨hbad, rfl⟩ | ⟨-, hbad, rfl⟩
    · exact .inr (.inl rfl)
    · exact .inl ⟨_, badReg_opA_holdsIn hp hbad, rfl⟩
    · exact .inl ⟨_, badReg_opB_holdsIn hp hbad, rfl⟩
  · -- PUSH
    rcases execPush_next h with ⟨_, -, -, -, -, rfl⟩ | ⟨hbad, rfl⟩ | ⟨-, hsp, rfl⟩ |
      ⟨i, hi, -, -, -, hval, rfl⟩
    · exact .inr (.inl rfl)
    · exact .inl ⟨_, badReg_opA_holdsIn hp hbad, rfl⟩
    · exact .inl ⟨_, pushSlotFault_holdsIn (op := .push) hp hop (.inl rfl) hsp, rfl⟩
    · exact .inl ⟨_, pushValueFault_holdsIn hp hop hi hval, rfl⟩
  · -- POP
    rcases execPop_next h with ⟨_, -, -, -, rfl⟩ | ⟨hbad, rfl⟩ | ⟨_, hi, hsp, rfl⟩
    · exact .inr (.inl rfl)
    · exact .inl ⟨_, badReg_opA_holdsIn hp hbad, rfl⟩
    · exact .inl ⟨_, popFault_holdsIn hp hop hi hsp, rfl⟩
  · -- CALL: the return address always fits, since the slot did
    rcases execCall_next h with ⟨_, -, -, -, -, rfl⟩ | ⟨hbad, rfl⟩ | ⟨-, hsp, rfl⟩ | ⟨hpc, -⟩
    · exact .inr (.inl rfl)
    · exact .inl ⟨_, badReg_opA_holdsIn hp hbad, rfl⟩
    · exact .inl ⟨_, pushSlotFault_holdsIn (op := .call) hp hop (.inr rfl) hsp, rfl⟩
    · omega
  · -- RET
    rcases execRet_next h with ⟨-, rfl⟩ | ⟨hsp, rfl⟩
    · exact .inr (.inl rfl)
    · exact .inl ⟨_, retFault_holdsIn hp hop hsp, rfl⟩
  · -- HLT
    exact .inr (.inr (congrArg State.run (execHlt_next h)))

/-- The fault record a state stands with, if any, names its `pc` and a cause that holds (R99). -/
def FaultTruthful (s : State) : Prop :=
  ∀ f : FaultRecord, s.run = .faulted f → f.pc = s.pcVal ∧ f.cause.holdsIn s

/-- The record of a fault entry is true when its cause holds where the fault is taken (R99). -/
theorem faultTruthful_takeFault {s : State} {c : FaultCause} (h : c.holdsIn s) :
    FaultTruthful (s.takeFault c) := by
  intro f hf
  rw [takeFault_run] at hf
  cases hf
  exact ⟨rfl, holdsIn_takeFault h⟩

/-- A cycle leaves a true record, or the state it stopped in before (R67, R99). -/
theorem step_faultTruthful {s t : State} (hs : FaultTruthful s) (h : step s = .next t) :
    FaultTruthful t := by
  rcases step_cases h with ⟨-, rfl⟩ | ⟨-, hp, rfl⟩ | ⟨-, hp, ho, rfl⟩ | ⟨hr, hp, i, hd, hexec⟩
  · exact hs
  · exact faultTruthful_takeFault (slotFault_holdsIn hp)
  · exact faultTruthful_takeFault ⟨rfl, hp, rfl, ho⟩
  · rcases exec_fault_holdsIn (s := s.fetched) hp hd hexec with ⟨c, hc, rfl⟩ | hrun | hrun
    · exact faultTruthful_takeFault hc
    · intro f hf
      rw [hrun, latch_run, hr] at hf
      cases hf
    · intro f hf
      rw [hrun] at hf
      cases hf

/-- Settles O44: memory and `fl` by the frame of the cycle, the fault record by the cause it was taken
for. -/
theorem stepKeepsInv : Obligations.StepKeepsInv := by
  rintro s t ⟨hw, hl, hf⟩ h
  have hframe := step_cycleFrame h
  exact ⟨hframe.mem_wf hw, hframe.legal_fl hl, step_faultTruthful hf h⟩

end Sys2Proof.Machine
end

section
/-! Memory (20_memory.md): the primitives (R31, R32), the loader's refusal of a malformed image (R46,
R47), who writes memory (R33), and that the fetch reads what was just stored (R43). -/

namespace Sys2Proof.Machine

/-! The primitives. -/

/-- Settles O20: the two outcomes of `memRead`. -/
theorem memReadRule : Obligations.MemReadRule := fun _ _ =>
  ⟨fun h => memRead_eq_error.mpr ⟨h, rfl⟩, fun h => memRead_eq_ok.mpr ⟨h, rfl⟩⟩

/-- A stored value of at most 255 reads back as that number (R30, R32). -/
theorem setByte_byteAt_toNat {s : State} {a v : Nat} (hw : Memory.wf s.mem = true) (hv : v ≤ 255) :
    ((s.setByte a (BitVec.ofNat 8 v)).byteAt a).toNat = v := by
  rw [setByte_byteAt_same a _ hw, BitVec.toNat_ofNat, Nat.mod_eq_of_lt (by omega)]

/-- Settles O21: the three outcomes of `memWrite`; the state of the third is one `setByte`. -/
theorem memWriteRule : Obligations.MemWriteRule := by
  intro s addr v
  refine ⟨fun ha => memWrite_eq_error.mpr (.inl ⟨ha, rfl⟩),
    fun ha hv => memWrite_eq_error.mpr (.inr ⟨ha, hv, rfl⟩), fun ha hv hw => ?_⟩
  exact ⟨_, memWrite_eq_ok.mpr ⟨ha, hv, rfl⟩, setByte_byteAt_toNat hw hv,
    fun _ hb => setByte_byteAt_other _ hb, fun _ _ => rfl, rfl, rfl, rfl, rfl, rfl, rfl, rfl, rfl, rfl⟩

/-! The loader. -/

/-- Only binary digits write a number (R46). -/
theorem binaryValue_eq_some_digits {v : Nat} : ∀ {cs : List Char} {acc : Nat},
    binaryValue cs acc = some v → ∀ c ∈ cs, c = '0' ∨ c = '1'
  | [], _, _ => by simp
  | d :: cs, acc, h => by
    simp only [binaryValue] at h
    rw [List.forall_mem_cons]
    split at h
    · exact ⟨.inl ‹_›, binaryValue_eq_some_digits h⟩
    · split at h
      · exact ⟨.inr ‹_›, binaryValue_eq_some_digits h⟩
      · cases h

/-- A line an image may hold: blank after stripping, or a binary number of at most 255 (R46). -/
def LineLoads (line : List Char) : Prop :=
  lineContent line = [] ∨ ∃ v, binaryValue (lineContent line) 0 = some v ∧ v ≤ 255

/-- Lines are read only if the first one loads and the others are read (R46, R47). -/
theorem parseLines_cons_ok {n : Nat} {l : List Char} {ls : List (List Char)} {image : List Byte}
    (h : parseLines n (l :: ls) = .ok image) :
    LineLoads l ∧ ∃ rest, parseLines (n + 1) ls = .ok rest := by
  rw [parseLines] at h
  split at h
  · rename_i hblank
    exact ⟨.inl hblank, _, h⟩
  · rename_i hcontent
    split at h
    · cases h
    · rename_i v hv
      split at h
      · cases h
      · split at h
        · cases h
        · rename_i hle _ _ hrest
          exact ⟨.inr ⟨v, hcontent ▸ hv, Nat.not_lt.mp hle⟩, _, hrest⟩

theorem lineLoads_of_parseLines_ok : ∀ {ls : List (List Char)} {n : Nat} {image : List Byte},
    parseLines n ls = .ok image → ∀ l ∈ ls, LineLoads l
  | [], _, _, _ => by simp
  | _ :: _, _, _, h => by
    obtain ⟨hl, _, hrest⟩ := parseLines_cons_ok h
    exact List.forall_mem_cons.mpr ⟨hl, lineLoads_of_parseLines_ok hrest⟩

/-- A load that succeeds hands over the bytes of the lines, at most 256 of them (R46, R47). -/
theorem loadImage_eq_ok {text : List Char} {image : List Byte} (h : loadImage text = .ok image) :
    parseLines 1 (splitLines text) = .ok image ∧ image.length ≤ 256 := by
  unfold loadImage at h
  split at h
  · cases h
  · split at h
    · cases h
    · rename_i hparse hlen
      cases h
      exact ⟨hparse, Nat.not_lt.mp hlen⟩

/-- Settles O18: every line of a text that loads is blank or a binary number of at most 255. -/
theorem malformedImageFailsLoad : Obligations.MalformedImageFailsLoad := by
  intro text line hline hne hbad
  cases hload : loadImage text with
  | error e => exact ⟨e, rfl⟩
  | ok image =>
    exfalso
    rcases lineLoads_of_parseLines_ok (loadImage_eq_ok hload).1 line hline with hblank | ⟨v, hv, hle⟩
    · exact hne hblank
    · rcases hbad with ⟨c, hc, h0, h1⟩ | ⟨v', hv', hgt⟩
      · exact (binaryValue_eq_some_digits hv c hc).elim h0 h1
      · rw [hv, Option.some.injEq] at hv'
        omega

/-! Who writes memory. -/

theorem byteAt_of_mem_eq {s t : State} (h : t.mem = s.mem) (a : Nat) : t.byteAt a = s.byteAt a :=
  congrArg (Memory.read · a) h

/-- A cycle whose opcode is neither PUSH nor CALL leaves memory (R33). -/
theorem CycleFrame.sameMemory {op : Byte} {s t : State} (h : CycleFrame op s t) (hpush : op ≠ 0x45)
    (hcall : op ≠ 0x50) : sameMemory s t := by
  rcases h.mem with hmem | ⟨hop, -⟩
  · exact byteAt_of_mem_eq hmem
  · exact (hop.elim hpush hcall).elim

/-- Every cycle leaves each byte but the one just below `SP` (R33). -/
theorem CycleFrame.byteAt_other {op : Byte} {s t : State} (h : CycleFrame op s t) {a : Nat}
    (ha : a + 1 ≠ s.spVal) : t.byteAt a = s.byteAt a := by
  rcases h.mem with hmem | ⟨-, hlo, -, v, hmem⟩
  · exact byteAt_of_mem_eq hmem a
  · exact (congrArg (Memory.read · a) hmem).trans (write_read_other v (by omega) s.mem)

/-- Settles O22: both clauses are read off the frame of the cycle. -/
theorem onlyPushAndCallWriteMemory : Obligations.OnlyPushAndCallWriteMemory := fun _ _ h =>
  ⟨(step_cycleFrame h).sameMemory, fun _ => (step_cycleFrame h).byteAt_other⟩

/-! The store and the next fetch. -/

theorem fetch_ir {s t : State} (h : fetch s = .ok t) : t.ir = s.byteAt s.pcVal := by
  rw [(fetch_eq_ok.mp h).2, latch_ir]

/-- A fault leaves the engine stopped (R61, R100). -/
theorem takeFault_run_ne_running (s : State) (c : FaultCause) : (s.takeFault c).run ≠ .running := by
  simp

/-- A PUSH that completes leaves its register's value, read after the decrement, in the byte below the
old `SP` (R83). -/
theorem execPush_byteAt {s t : State} {i : Fin 8} (hw : Memory.wf s.mem = true)
    (hr : t.run = .running) (h : execPush (regByte i) s = .next t) :
    (t.byteAt (s.spVal - 1)).toNat = s.regValAfterSp (s.spVal - 1) i := by
  rcases execPush_next h with ⟨j, hj, -, -, hv, rfl⟩ | ⟨-, rfl⟩ | ⟨-, -, rfl⟩ | ⟨_, -, -, -, -, -, rfl⟩
  · obtain rfl := regByte_injective hj
    exact setByte_byteAt_toNat (s := s.setSp _) hw hv
  all_goals exact absurd hr (takeFault_run_ne_running _ _)

/-- A CALL that completes leaves its return address in the byte below the old `SP` (R86). -/
theorem execCall_byteAt {s t : State} {r : Byte} (hw : Memory.wf s.mem = true)
    (hr : t.run = .running) (h : execCall r s = .next t) :
    (t.byteAt (s.spVal - 1)).toNat = s.pcVal + 2 := by
  rcases execCall_next h with ⟨_, -, -, -, hpc, rfl⟩ | ⟨-, rfl⟩ | ⟨-, -, rfl⟩ | ⟨-, rfl⟩
  · exact setByte_byteAt_toNat (s := s.setSp _) hw (by omega)
  all_goals exact absurd hr (takeFault_run_ne_running _ _)

/-- Settles O23: the next opcode is the byte at the new `pc`, which is the byte just stored. -/
theorem storeSeenByNextFetch : Obligations.StoreSeenByNextFetch := by
  intro s t u i hw _ hr hpc hfetch
  have hir : u.ir = t.byteAt (s.spVal - 1) := by
    rw [fetch_ir hfetch, show t.pcVal = s.spVal - 1 by omega]
  rw [hir]
  exact ⟨execPush_byteAt hw hr, execCall_byteAt hw hr⟩

end Sys2Proof.Machine
end

section
/-! The decoder and the encoder against each other (30_encoding.md sections 1 to 3): the encoding of an
instruction is its opcode and the operand bytes its format uses, so it fixes a prefix of the slot and
leaves the rest free (R49, R52). -/

namespace Sys2Proof.Machine

/-- The opcodes are the ten values of the table (R53). -/
theorem isOpcode_eq_true_iff {op : Byte} : isOpcode op = true ↔
    op ∈ ([0x82, 0x47, 0xA2, 0xA0, 0xA7, 0x45, 0x46, 0x50, 0x11, 0x01] : List Byte) := by
  rw [← not_iff_not, Bool.not_eq_true, isOpcode_eq_false_iff]

/-- A slot holds an instruction exactly when its first byte is an opcode, whatever follows (R55). -/
theorem exists_decodeSlot_eq_ok {op a b : Byte} :
    (∃ i, decodeSlot op a b = .ok i) ↔ isOpcode op = true := by
  refine ⟨fun ⟨i, hi⟩ => ?_, decodeSlot_of_isOpcode a b⟩
  by_contra hop
  have hrefuse := decodeSlot_eq_error (a := a) (b := b).mpr ⟨Bool.eq_false_of_not_eq_true hop, rfl⟩
  exact nomatch hi.symm.trans hrefuse

/-- A slot that decodes begins with the encoding of what it decodes to (R49). -/
theorem encode_prefix_of_decodeSlot {op a b : Byte} {i : Instr} (h : decodeSlot op a b = .ok i) :
    encode i <+: [op, a, b] := by
  rcases decodeSlot_cases h with ⟨rfl, rfl⟩ | ⟨rfl, rfl⟩ | ⟨rfl, rfl⟩ | ⟨rfl, rfl⟩ | ⟨rfl, rfl⟩ |
    ⟨rfl, rfl⟩ | ⟨rfl, rfl⟩ | ⟨rfl, rfl⟩ | ⟨rfl, rfl⟩ | ⟨rfl, rfl⟩ <;>
    simp only [encode, List.cons_prefix_cons, List.nil_prefix, and_self]

/-- A slot that begins with the encoding of an instruction decodes to it: three bytes of the slot are
fixed under RR and RI, two under R, one under N (R49, R52). -/
theorem decodeSlot_of_encode_prefix {op a b : Byte} {i : Instr} (h : encode i <+: [op, a, b]) :
    decodeSlot op a b = .ok i := by
  cases i <;> simp only [encode, List.cons_prefix_cons, List.nil_prefix, and_true] at h
  case ldi | mul | add | cmp => obtain ⟨rfl, rfl, rfl⟩ := h; rfl
  case prn | push | pop | call => obtain ⟨rfl, rfl⟩ := h; rfl
  case ret | hlt => subst h; rfl

/-- Settles O15: by the rows of the table in one direction, by the instruction in the other. -/
theorem decodeInvertsEncode : Obligations.DecodeInvertsEncode := fun _ _ _ _ =>
  ⟨encode_prefix_of_decodeSlot, decodeSlot_of_encode_prefix⟩

/-- Settles O14: refusing and decoding are told apart by the opcode byte alone, which is one of the ten
values or none of them. -/
theorem onlyTenOpcodesDecode : Obligations.OnlyTenOpcodesDecode := by
  intro op a b
  constructor
  · rw [decodeSlot_eq_error, and_iff_left rfl, isOpcode_eq_false_iff]
  · rw [exists_decodeSlot_eq_ok, isOpcode_eq_true_iff]

/-- Settles O13: six lookups in the fixed table. -/
theorem specWordsDecode : Obligations.SpecWordsDecode :=
  ⟨rfl, rfl, rfl, rfl, rfl, rfl⟩

end Sys2Proof.Machine
end

section
/-! The cycle of the engine (40_engine.md): how a running cycle ends, what a stopped engine does, and that
a placed slot is the one the next cycle runs. -/

namespace Sys2Proof.Machine

/-! How a cycle ends. -/

/-- HLT is the one instruction with its opcode byte (R53, R88). -/
theorem opcode_eq_hlt_iff {i : Instr} : i.opcode = 0x01 ↔ i = .hlt := by
  cases i <;> simp [Instr.opcode, encode]

/-- The three ends of a running cycle (R61, R68): it goes on, it halts by HLT, or it faults with its own
`pc` in the record and nothing visible changed. -/
theorem step_running_ends {s t : State} (hr : s.run = .running) (h : step s = .next t) :
    (t.run = .running ∧ s.byteAt s.pcVal ≠ 0x01) ∨ (t.run = .halted ∧ s.byteAt s.pcVal = 0x01) ∨
      ∃ c, t.run = .faulted { pc := s.pcVal, cause := c } ∧ sameVisible s t := by
  rcases step_cases h with ⟨hstop, -⟩ | ⟨-, -, rfl⟩ | ⟨-, -, -, rfl⟩ | ⟨-, -, i, hd, hexec⟩
  · exact absurd hr hstop
  · exact .inr (.inr ⟨_, rfl, takeFault_sameVisible s _⟩)
  · exact .inr (.inr ⟨_, rfl, takeFault_sameVisible s.fetched _⟩)
  · have hop : s.byteAt s.pcVal = 0x01 ↔ i = .hlt := opcode_of_decodeSlot hd ▸ opcode_eq_hlt_iff
    rcases exec_next_summary hexec with ⟨c, rfl⟩ | ⟨hhlt, hrun, -⟩
    · exact .inr (.inr ⟨c, rfl, takeFault_sameVisible s.fetched c⟩)
    · by_cases hi : i = .hlt
      · exact .inr (.inl ⟨congrArg State.run (hhlt hi), hop.mpr hi⟩)
      · exact .inl ⟨(hrun hi).trans hr, fun hbyte => hi (hop.mp hbyte)⟩

/-- Settles O5: the three ends of a running cycle; a stopped engine answers its own state. -/
theorem engineTransitions : Obligations.EngineTransitions := by
  intro s t h
  constructor
  · intro hr
    rcases step_running_ends hr h with hrun | hhalt | ⟨c, hfault, -⟩
    · exact .inl hrun
    · exact .inr (.inl hhalt)
    · exact .inr (.inr ⟨_, hfault⟩)
  · intro hr
    rw [step_stopped hr] at h
    cases h
    rfl

/-- Settles O6: of the three ends of a running cycle only the fault leaves `Faulted(f)`. -/
theorem faultsArePrecise : Obligations.FaultsArePrecise := by
  intro s t f hr h hf
  rcases step_running_ends hr h with ⟨hrun, -⟩ | ⟨hhalt, -⟩ | ⟨c, hfault, hsame⟩
  · exact nomatch hf.symm.trans hrun
  · exact nomatch hf.symm.trans hhalt
  · cases hf.symm.trans hfault
    exact ⟨rfl, hsame⟩

/-- Settles O4: by induction on the number of steps, each of which answers the same state. -/
theorem stoppedEngineStays : Obligations.StoppedEngineStays := by
  intro n s hr
  induction n with
  | zero => rfl
  | succ n ih => rw [runFor_succ n s s (step_stopped hr), ih]

/-! What a cycle runs. -/

/-- Settles O1: the fetch succeeds and dispatch finds `i`, so the cycle is the meaning of `i`. -/
theorem stepRunsDecodedInstruction : Obligations.StepRunsDecodedInstruction :=
  fun _ _ hr hp hd => step_decoded hr hp hd

/-- Settles O2: the fetch fails at `pc` itself above 255, and at 256 from 254 and 255. -/
theorem slotOutsideMemoryFaults : Obligations.SlotOutsideMemoryFaults := by
  intro s hr
  refine ⟨fun hp => faultsWith_of_eq ?_, fun hp => faultsWith_of_eq ?_⟩
  · rw [step_slot_fault hr (by omega), if_pos hp]
  · rw [step_slot_fault hr (by omega), if_neg (by omega)]

/-! A placed slot. -/

/-- A word of the table decodes as its three bytes do (R35). -/
theorem decodeTableWord_eq_some {nbits w : Nat} {i : Instr} :
    decodeTableWord nbits w = some i ↔ decodeSlot (slotOfTableWord nbits w).1
      (slotOfTableWord nbits w).2.1 (slotOfTableWord nbits w).2.2 = .ok i := by
  unfold decodeTableWord
  cases decodeSlot .. <;> simp

/-- Placing a slot moves no `pc`. -/
@[simp] theorem placeSlot_pcVal (s : State) (a b c : Byte) : (s.placeSlot a b c).pcVal = s.pcVal := by
  unfold State.placeSlot
  split <;> rfl

/-- Placing a slot in memory lets the engine run (log entry 7). -/
theorem placeSlot_run {s : State} (a b c : Byte) (hp : s.pcVal ≤ 253) :
    (s.placeSlot a b c).run = .running := by
  unfold State.placeSlot
  rw [if_pos hp]

/-- The cycle after a slot was placed fetches its bytes and runs what they decode to (R63 to R66). -/
theorem step_placeSlot {s : State} {a b c : Byte} {i : Instr} (hw : Memory.wf s.mem = true)
    (hp : s.pcVal ≤ 253) (hd : decodeSlot a b c = .ok i) :
    step (s.placeSlot a b c) = exec i ((s.placeSlot a b c).latch a b c) := by
  obtain ⟨hop, hopA, hopB⟩ := placeSlot_bytes a b c hp hw
  have hpc : (s.placeSlot a b c).pcVal ≤ 253 := by rwa [placeSlot_pcVal]
  have hcycle := step_decoded (i := i) (placeSlot_run a b c hp) hpc
  rw [State.fetched, placeSlot_pcVal, hop, hopA, hopB] at hcycle
  exact hcycle hd

/-- Settles O12: the latched bytes are those of the word. -/
theorem placedWordRunsNext : Obligations.PlacedWordRunsNext :=
  fun _ _ _ _ hw hp hd => ⟨_, _, _, step_placeSlot hw hp (decodeTableWord_eq_some.mp hd)⟩

end Sys2Proof.Machine
end

section
/-! Data movement (41_data_movement.md): LDI (R71), PRN (R72) and the line of text a PRN adds (R73). Each
rests on one equation for the meaning on a good register byte and one for the fault on a bad one. -/

namespace Sys2Proof.Machine

/-! A handler that checks one register operand first. -/

/-- A byte that names a register passes the check (R50). -/
theorem conclude_regOperand_regByte (s : State) (i : Fin 8) (f : Fin 8 → Except FaultCause State) :
    conclude s (regOperand (regByte i) >>= f) = conclude s (f i) := by
  rw [regOperand_regByte, ok_bind]

/-- A byte above 7 faults before anything else of the handler (R50, R94). -/
theorem conclude_regOperand_faultsWith (s : State) {r : Byte} (hr : 7 < r.toNat)
    (f : Fin 8 → Except FaultCause State) :
    FaultsWith (conclude s (regOperand r >>= f)) s (badReg r) :=
  faultsWith_of_eq (by rw [regOperand_bad hr, error_bind, conclude_error])

/-! The writes of the two instructions. -/

/-- After a fetch an advance does not wrap (R20, R66): from 253 it reaches at most 256. -/
theorem advance_pcVal {s : State} {n : Nat} (hp : s.pcVal ≤ 253) (hn : n ≤ 3) :
    (s.advance n).pcVal = s.pcVal + n := by
  rw [advance_eq, setPc_pcVal, mod_width_of_lt _ _ (by omega)]

/-- A byte fits in a register of every width (R51). -/
theorem byte_mod_width (c : Config) (b : Byte) : b.toNat % 2 ^ c.W = b.toNat :=
  mod_width_of_lt c _ (b.isLt.trans (by decide))

theorem setReg_regVal_same (s : State) (i : Fin 8) (v : Nat) :
    (s.setReg i v).regVal i = v % 2 ^ s.cfg.W := by
  rw [setReg_regVal, if_pos rfl]

theorem setReg_sameRegsExcept (s : State) (i : Fin 8) (v : Nat) :
    sameRegsExcept [i] s (s.setReg i v) := by
  intro k hk
  rw [setReg_regVal, if_neg (List.ne_of_not_mem_cons hk)]

/-- PRN emits a register's full value, with no narrowing (R72). -/
theorem emit_regVal_outVals (s : State) (i : Fin 8) :
    (s.emit (s.regVal i)).outVals = s.outVals ++ [s.regVal i] := by
  rw [emit_outVals, regVal_mod]

/-! LDI. -/

theorem exec_ldi_regByte (s : State) (d : Fin 8) (imm : Byte) :
    exec (.ldi (regByte d) imm) s = .next ((s.setReg d imm.toNat).advance 3) :=
  conclude_regOperand_regByte s d _

/-- Settles O24: a bad register byte faults; otherwise one register write and an advance. -/
theorem ldiRule : Obligations.LdiRule := by
  intro s r imm
  refine ⟨fun hr => conclude_regOperand_faultsWith s hr _, ?_⟩
  rintro d rfl
  have hreg : (s.setReg d imm.toNat).regVal d = imm.toNat :=
    (setReg_regVal_same s d _).trans (byte_mod_width s.cfg imm)
  exact ⟨_, exec_ldi_regByte s d imm, hreg,
    fun hp => advance_pcVal (s := s.setReg d imm.toNat) hp (Nat.le_refl 3),
    setReg_sameRegsExcept s d imm.toNat, rfl, fun _ => rfl, rfl, rfl, rfl, rfl, rfl, rfl, rfl⟩

/-! PRN. -/

theorem exec_prn_regByte (s : State) (i : Fin 8) :
    exec (.prn (regByte i)) s = .next ((s.emit (s.regVal i)).advance 2) :=
  conclude_regOperand_regByte s i _

/-- Settles O25: a bad register byte faults; otherwise one value emitted and an advance. -/
theorem prnRule : Obligations.PrnRule := by
  intro s r
  refine ⟨fun hr => conclude_regOperand_faultsWith s hr _, ?_⟩
  rintro i rfl
  exact ⟨_, exec_prn_regByte s i, emit_regVal_outVals s i,
    fun hp => advance_pcVal (s := s.emit (s.regVal i)) hp (by decide),
    fun _ _ => rfl, rfl, fun _ => rfl, rfl, rfl, rfl, rfl, rfl, rfl⟩

/-- One more output value is one more line at the end of the text (R73). -/
theorem outputText_of_outVals_append {s t : State} {v : Nat} (h : t.outVals = s.outVals ++ [v])
    (lineEnd : List Char) :
    t.outputText lineEnd = s.outputText lineEnd ++ renderValue lineEnd v := by
  rw [State.outputText, h, List.flatMap_append, List.flatMap_singleton]
  rfl

/-- Settles O27: the value that PRN emits is rendered as the last line. -/
theorem prnAppendsOneLine : Obligations.PrnAppendsOneLine := by
  intro s i
  obtain ⟨t, hexec, hout, -⟩ := (prnRule s (regByte i)).2 i rfl
  exact ⟨t, hexec, outputText_of_outVals_append hout⟩

end Sys2Proof.Machine
end

section
/-! The ALU (42_alu.md): its operations (R74), MUL (R75), ADD (R76), CMP (R78) and the flags law (R79).
The three instructions share one handler, so each rule is the handler's operand checks, one equation for
the instruction on two good register bytes, and what its one write leaves. -/

namespace Sys2Proof.Machine

/-! The operations. -/

/-- Settles O28: ADD and MUL narrow the exact result to `w` bits; CMP and the rejection are the
definition's own cases. -/
theorem aluOperations : Obligations.AluOperations := fun _ _ _ =>
  ⟨⟨_, rfl, BitVec.toNat_ofNat _ _⟩, ⟨_, rfl, BitVec.toNat_ofNat _ _⟩, rfl, fun _ => rfl⟩

/-! The handler the three instructions share. -/

/-- An operation the ALU has faults on a bad `opA`, else on a bad `opB` (R69, R94). -/
theorem conclude_aluInstr_faultsWith {op : AluOp} (s : State) (a b : Byte)
    (hop : ∀ u v : Word s.cfg.W, ∃ e, alu op u v = .ok e) :
    (7 < a.toNat → FaultsWith (conclude s (aluInstr op a b s)) s (badReg a)) ∧
      (a.toNat ≤ 7 → 7 < b.toNat → FaultsWith (conclude s (aluInstr op a b s)) s (badReg b)) := by
  refine ⟨fun ha => faultsWith_of_eq ?_, fun ha hb => faultsWith_of_eq ?_⟩
  · rw [(aluInstr_eq_error hop).mpr (.inl ⟨ha, rfl⟩), conclude_error]
  · rw [(aluInstr_eq_error hop).mpr (.inr ⟨ha, hb, rfl⟩), conclude_error]

/-- On two bytes that name registers the ALU's answer is written and `pc` advances. -/
theorem conclude_aluInstr_regByte {op : AluOp} {s : State} {i j : Fin 8} {e : AluEffect s.cfg.W}
    (he : alu op (s.x.get i) (s.x.get j) = .ok e) :
    conclude s (aluInstr op (regByte i) (regByte j) s) =
      .next ((s.applyEffect i e).advance 3) := by
  rw [aluInstr_eq_ok.mpr ⟨i, j, e, rfl, rfl, he, rfl⟩, conclude_ok]

/-- The ALU narrows a result to `W` bits and the register write does so again, to no effect (R77). -/
theorem applyEffect_register_ofNat (s : State) (d : Fin 8) (v : Nat) :
    s.applyEffect d (.register (BitVec.ofNat s.cfg.W v)) = s.setReg d v := by
  rw [State.applyEffect, BitVec.toNat_ofNat, setReg_mod]

/-! MUL and ADD. -/

/-- What a register write and an advance over a three-byte slot leave (R66, R77). -/
theorem setReg_advance_leaves (s : State) (d : Fin 8) (v : Nat) :
    ((s.setReg d v).advance 3).regVal d = v % 2 ^ s.cfg.W ∧
      (s.pcVal ≤ 253 → ((s.setReg d v).advance 3).pcVal = s.pcVal + 3) ∧
      sameRegsExcept [d] s ((s.setReg d v).advance 3) ∧ ((s.setReg d v).advance 3).fl = s.fl ∧
      sameMemory s ((s.setReg d v).advance 3) ∧ ((s.setReg d v).advance 3).outVals = s.outVals ∧
      sameEngine s ((s.setReg d v).advance 3) :=
  ⟨setReg_regVal_same s d v, fun hp => advance_pcVal (s := s.setReg d v) hp (Nat.le_refl 3),
    setReg_sameRegsExcept s d v, rfl, fun _ => rfl, rfl, rfl, rfl, rfl, rfl, rfl, rfl⟩

theorem exec_mul_regByte (s : State) (i j : Fin 8) :
    exec (.mul (regByte i) (regByte j)) s =
      .next ((s.setReg i (s.regVal i * s.regVal j)).advance 3) := by
  rw [← applyEffect_register_ofNat]
  exact conclude_aluInstr_regByte rfl

/-- Settles O29: the operand checks of the shared handler, then one register write and an advance. -/
theorem mulRule : Obligations.MulRule := by
  intro s a b
  obtain ⟨hbadA, hbadB⟩ := conclude_aluInstr_faultsWith (op := .mul) s a b fun _ _ => ⟨_, rfl⟩
  refine ⟨hbadA, hbadB, ?_⟩
  rintro i j rfl rfl
  exact ⟨_, exec_mul_regByte s i j, setReg_advance_leaves s i _⟩

theorem exec_add_regByte (s : State) (i j : Fin 8) :
    exec (.add (regByte i) (regByte j)) s =
      .next ((s.setReg i (s.regVal i + s.regVal j)).advance 3) := by
  rw [← applyEffect_register_ofNat]
  exact conclude_aluInstr_regByte rfl

/-- Settles O30: the operand checks of the shared handler, then one register write and an advance. -/
theorem addRule : Obligations.AddRule := by
  intro s a b
  obtain ⟨hbadA, hbadB⟩ := conclude_aluInstr_faultsWith (op := .add) s a b fun _ _ => ⟨_, rfl⟩
  refine ⟨hbadA, hbadB, ?_⟩
  rintro i j rfl rfl
  exact ⟨_, exec_add_regByte s i j, setReg_advance_leaves s i _⟩

/-! CMP. -/

theorem exec_cmp_regByte (s : State) (i j : Fin 8) :
    exec (.cmp (regByte i) (regByte j)) s =
      .next ((s.setFl (compareFlags (s.x.get i) (s.x.get j))).advance 3) :=
  conclude_aluInstr_regByte (e := .flags (compareFlags (s.x.get i) (s.x.get j))) rfl

/-- Settles O31: the operand checks of the shared handler, then one write of `fl` and an advance. -/
theorem cmpRule : Obligations.CmpRule := by
  intro s a b
  obtain ⟨hbadA, hbadB⟩ := conclude_aluInstr_faultsWith (op := .cmp) s a b fun _ _ => ⟨_, rfl⟩
  refine ⟨hbadA, hbadB, ?_⟩
  rintro i j rfl rfl
  exact ⟨_, exec_cmp_regByte s i j, rfl, fun hp => advance_pcVal (s := s.setFl _) hp (Nat.le_refl 3),
    fun _ _ => rfl, fun _ => rfl, rfl, rfl, rfl, rfl, rfl, rfl, rfl⟩

/-- A comparison ends in one of three ways: by the unsigned order of the two words, E, G or L (R78). -/
theorem compareFlags_cases {w : Nat} (a b : Word w) :
    (a.toNat = b.toNat ∧ compareFlags a b = flagE) ∨ (a.toNat > b.toNat ∧ compareFlags a b = flagG) ∨
      (a.toNat < b.toNat ∧ compareFlags a b = flagL) := by
  unfold compareFlags
  rcases Nat.lt_trichotomy a.toNat b.toNat with hlt | heq | hgt
  · exact .inr (.inr ⟨hlt, by rw [if_neg hlt.ne, if_neg hlt.not_gt]⟩)
  · exact .inl ⟨heq, if_pos heq⟩
  · exact .inr (.inl ⟨hgt, by rw [if_neg hgt.ne', if_pos hgt]⟩)

/-- A legal value of `fl` has no bit above the three flags (R22). -/
theorem legalFlags_high_bits {f : BitVec 8} (hf : legalFlags f = true) {k : Nat} (hk : 3 ≤ k) :
    f.getLsbD k = false := by
  have hlt : f.toNat < 2 ^ 3 := by
    simp only [legalFlags, Bool.or_eq_true, beq_iff_eq] at hf
    rcases hf with ((rfl | rfl) | rfl) | rfl <;> decide
  exact Nat.testBit_lt_two_pow (hlt.trans_le (Nat.pow_le_pow_right (by decide) hk))

/-- Each flag holds exactly in its own order of the two words (R79). -/
theorem compareFlags_bits {w : Nat} (a b : Word w) :
    ((compareFlags a b).getLsbD 0 = true ↔ a.toNat = b.toNat) ∧
      ((compareFlags a b).getLsbD 1 = true ↔ a.toNat > b.toNat) ∧
      ((compareFlags a b).getLsbD 2 = true ↔ a.toNat < b.toNat) := by
  rcases compareFlags_cases a b with ⟨hord, hfl⟩ | ⟨hord, hfl⟩ | ⟨hord, hfl⟩
  · simp [hfl, flagE, hord]
  · simp [hfl, flagG, hord, hord.ne', hord.le]
  · simp [hfl, flagL, hord, hord.ne, hord.le]

/-- Settles O32: the bits of the comparison that CMP writes into `fl`. -/
theorem cmpFlagsLaw : Obligations.CmpFlagsLaw := by
  intro s i j
  obtain ⟨hE, hG, hL⟩ := compareFlags_bits (s.x.get i) (s.x.get j)
  exact ⟨_, exec_cmp_regByte s i j, hE, hG, hL,
    fun k hk => legalFlags_high_bits (legalFlags_compareFlags _ _) hk⟩

end Sys2Proof.Machine
end

section
/-! The stack (43_stack.md): PUSH (R83), POP (R84), when a stack instruction raises `StackFault` (R85) and
the round trip of the pair (R96). PUSH and CALL share the checks before a store, POP and RET those around
a read; each fault is proved once for the sharing pair. -/

namespace Sys2Proof.Machine

/-! The checks a pair of stack instructions shares. -/

/-- PUSH and CALL fault when the decremented `SP` leaves memory, whatever they go on to store (R83, R86). -/
theorem conclude_pushSlot_faultsWith {op : StackOp} {s : State} (i : Fin 8)
    (hsp : s.spVal = 0 ∨ 256 < s.spVal) (f : Fin 8 → Nat → Except FaultCause State) :
    FaultsWith (conclude s (regOperand (regByte i) >>= fun j => pushSlot op s >>= f j)) s
      (.stackFault op s.spVal) :=
  faultsWith_of_eq (by
    rw [conclude_regOperand_regByte, pushSlot_eq_error.mpr ⟨hsp, rfl⟩, error_bind, conclude_error])

/-- POP and RET fault when the `SP` they read at, or the one `newSp` that they would leave, exceeds 255
(R84, R87). -/
theorem conclude_popSlot_faultsWith {op : StackOp} {s : State} (newSp : Nat → Byte → Nat)
    (hsp : 255 < s.spVal ∨ 255 < newSp s.spVal (s.byteAt s.spVal))
    (f : Nat → Byte → Nat → Except FaultCause State) :
    FaultsWith (conclude s (popSlot op s >>= fun a => memRead s a >>= fun v =>
      checkSp op s (newSp a v) >>= f a v)) s (.stackFault op s.spVal) := by
  apply faultsWith_of_eq
  by_cases hread : 255 < s.spVal
  · rw [popSlot_eq_error.mpr ⟨hread, rfl⟩, error_bind, conclude_error]
  · have hleft := hsp.resolve_left hread
    rw [popSlot_eq_ok.mpr ⟨Nat.le_of_not_lt hread, rfl⟩, ok_bind,
      memRead_eq_ok.mpr ⟨Nat.le_of_not_lt hread, rfl⟩, ok_bind,
      checkSp_eq_error.mpr ⟨hleft, rfl⟩, error_bind, conclude_error]

/-- A stack pointer that fits in a register of every width reads back (R7, R17). -/
theorem setSp_spVal {s : State} {v : Nat} (hv : v ≤ 256) : (s.setSp v).spVal = v :=
  (setReg_regVal_same s Config.spIndex v).trans (mod_width_of_lt s.cfg v (by omega))

/-- Moving `SP` and storing a byte changes memory at that byte only (R32, R33). -/
theorem setSp_setByte_sameMemoryExcept (s : State) (a : Nat) (b : Byte) :
    sameMemoryExcept a s ((s.setSp a).setByte a b) :=
  fun _ hne => setByte_byteAt_other (s := s.setSp a) b hne

/-! PUSH. -/

/-- PUSH of a register from an `SP` of 1 to 256 is the store alone (R83). -/
theorem exec_push_regByte {s : State} (i : Fin 8) (hlo : 1 ≤ s.spVal) (hhi : s.spVal ≤ 256) :
    exec (.push (regByte i)) s =
      conclude s (memWrite (s.setSp (s.spVal - 1)) (s.spVal - 1)
        (s.regValAfterSp (s.spVal - 1) i) >>= fun t => pure (t.advance 2)) := by
  refine (conclude_regOperand_regByte s i _).trans ?_
  rw [pushSlot_eq_ok.mpr ⟨hlo, hhi, rfl⟩, ok_bind]

theorem exec_push_completes {s : State} {i : Fin 8} (hlo : 1 ≤ s.spVal) (hhi : s.spVal ≤ 256)
    (hval : s.regValAfterSp (s.spVal - 1) i ≤ 255) :
    exec (.push (regByte i)) s = .next (((s.setSp (s.spVal - 1)).setByte (s.spVal - 1)
      (BitVec.ofNat 8 (s.regValAfterSp (s.spVal - 1) i))).advance 2) := by
  rw [exec_push_regByte i hlo hhi, memWrite_eq_ok.mpr ⟨by omega, hval, rfl⟩]
  rfl

/-- The value check fails for a register other than `R7` only: the decremented `SP` is a byte (R83). -/
theorem exec_push_valueFault {s : State} {i : Fin 8} (hlo : 1 ≤ s.spVal) (hhi : s.spVal ≤ 256)
    (hi : i ≠ 7) (hval : 255 < s.regVal i) :
    exec (.push (regByte i)) s = .next (s.takeFault (.valueOutOfRange (s.regVal i))) := by
  have hread : s.regValAfterSp (s.spVal - 1) i = s.regVal i := if_neg hi
  rw [exec_push_regByte i hlo hhi, hread, memWrite_eq_error.mpr (.inr ⟨by omega, hval, rfl⟩),
    error_bind, conclude_error]

/-- The value PUSH stores is a byte: the decremented `SP` for `R7`, else the register (R83). -/
theorem regValAfterSp_le {s : State} {sp : Nat} {i : Fin 8} (hsp : sp ≤ 255)
    (hi : i ≠ 7 → s.regVal i ≤ 255) : s.regValAfterSp sp i ≤ 255 := by
  unfold State.regValAfterSp
  split
  · exact hsp
  · next hne => exact hi hne

/-- Settles O35: the register check, the slot check and the value check each give their fault; past all
three, one register write, one store and an advance. -/
theorem pushRule : Obligations.PushRule := by
  intro s r
  refine ⟨fun hr => conclude_regOperand_faultsWith s hr _, ?_⟩
  rintro i rfl
  refine ⟨fun hsp => conclude_pushSlot_faultsWith i hsp _,
    fun hlo hhi hi hval => faultsWith_of_eq (exec_push_valueFault hlo hhi hi hval),
    fun hlo hhi hi => ?_⟩
  have hval : s.regValAfterSp (s.spVal - 1) i ≤ 255 := regValAfterSp_le (by omega) hi
  exact ⟨_, exec_push_completes hlo hhi hval, pushSlot_eq_ok.mpr ⟨hlo, hhi, rfl⟩,
    setSp_spVal (by omega), fun hw => setByte_byteAt_toNat (s := s.setSp _) hw hval,
    fun a ha => by
      obtain ⟨-, -, rfl⟩ := pushSlot_eq_ok.mp ha
      exact setSp_setByte_sameMemoryExcept s _ _,
    fun hp => advance_pcVal (s := (s.setSp _).setByte _ _) hp (by decide),
    setReg_sameRegsExcept s _ _, rfl, rfl, rfl, rfl, rfl, rfl, rfl, rfl⟩

/-! POP. -/

theorem exec_pop_completes {s : State} {d : Fin 8} (hread : s.spVal ≤ 255)
    (hleft : (if d = 7 then (s.byteAt s.spVal).toNat else s.spVal) + 1 ≤ 255) :
    exec (.pop (regByte d)) s = .next (((s.setReg d (s.byteAt s.spVal).toNat).setSp
      ((if d = 7 then (s.byteAt s.spVal).toNat else s.spVal) + 1)).advance 2) := by
  refine (conclude_regOperand_regByte s d _).trans ?_
  rw [popSlot_eq_ok.mpr ⟨hread, rfl⟩, ok_bind, memRead_eq_ok.mpr ⟨hread, rfl⟩, ok_bind,
    checkSp_eq_ok.mpr ⟨hleft, rfl⟩]
  rfl

theorem exec_pop_stackFault {s : State} {d : Fin 8}
    (hsp : 255 < s.spVal ∨ 255 < (if d = 7 then (s.byteAt s.spVal).toNat else s.spVal) + 1) :
    FaultsWith (exec (.pop (regByte d)) s) s (.stackFault .pop s.spVal) := by
  rw [show exec (.pop (regByte d)) s = _ from conclude_regOperand_regByte s d _]
  exact conclude_popSlot_faultsWith (fun a v => (if d = 7 then v.toNat else a) + 1) hsp _

/-- A register other than `R7` written before `SP` keeps the byte it got (R84). -/
theorem setReg_setSp_regVal {s : State} {d : Fin 8} (hd : d ≠ 7) (b : Byte) (sp : Nat) :
    ((s.setReg d b.toNat).setSp sp).regVal d = b.toNat := by
  rw [setSp_eq, setReg_regVal, if_neg hd, setReg_regVal_same, byte_mod_width]

theorem setReg_setSp_sameRegsExcept (s : State) (d : Fin 8) (v sp : Nat) :
    sameRegsExcept [d, 7] s ((s.setReg d v).setSp sp) := by
  intro k hk
  obtain ⟨hd, h7⟩ : k ≠ d ∧ k ≠ 7 := by simpa using hk
  rw [setSp_eq, setReg_regVal, if_neg h7, setReg_regVal, if_neg hd]

/-- Settles O36: the register check and the two checks of `SP` give the faults; past them, two register
writes and an advance. -/
theorem popRule : Obligations.PopRule := by
  intro s r
  refine ⟨fun hr => conclude_regOperand_faultsWith s hr _, ?_⟩
  rintro d rfl
  refine ⟨exec_pop_stackFault, fun hread hleft => ?_⟩
  exact ⟨_, exec_pop_completes hread hleft, fun hd => setReg_setSp_regVal hd _ _,
    setSp_spVal (hleft.trans (by decide)),
    fun hp => advance_pcVal (s := (s.setReg d _).setSp _) hp (by decide),
    setReg_setSp_sameRegsExcept s d _ _, rfl, fun _ => rfl, rfl, rfl, rfl, rfl, rfl, rfl, rfl⟩

/-! When a stack instruction raises `StackFault`. -/

section
variable {s : State} {i : Fin 8} (hr : s.run = .running)
include hr

theorem exec_push_stackFault_iff :
    FaultsWith (exec (.push (regByte i)) s) s (.stackFault .push s.spVal) ↔
      s.spVal = 0 ∨ 256 < s.spVal := by
  refine ⟨?_, fun hsp => conclude_pushSlot_faultsWith i hsp _⟩
  rintro ⟨t, h, hf, -⟩
  rcases execPush_next h with ⟨_, -, -, -, -, rfl⟩ | ⟨-, rfl⟩ | ⟨-, hsp, rfl⟩ | ⟨_, -, -, -, -, -, rfl⟩
  · exact nomatch hr.symm.trans hf
  · exact nomatch hf
  · exact hsp
  · exact nomatch hf

theorem exec_call_stackFault_iff :
    FaultsWith (exec (.call (regByte i)) s) s (.stackFault .call s.spVal) ↔
      s.spVal = 0 ∨ 256 < s.spVal := by
  refine ⟨?_, fun hsp => conclude_pushSlot_faultsWith i hsp _⟩
  rintro ⟨t, h, hf, -⟩
  rcases execCall_next h with ⟨_, -, -, -, -, rfl⟩ | ⟨-, rfl⟩ | ⟨-, hsp, rfl⟩ | ⟨-, rfl⟩
  · exact nomatch hr.symm.trans hf
  · exact nomatch hf
  · exact hsp
  · exact nomatch hf

theorem exec_pop_stackFault_iff :
    FaultsWith (exec (.pop (regByte i)) s) s (.stackFault .pop s.spVal) ↔
      255 < s.spVal ∨ 255 < (if i = 7 then (s.byteAt s.spVal).toNat else s.spVal) + 1 := by
  refine ⟨?_, exec_pop_stackFault⟩
  rintro ⟨t, h, hf, -⟩
  rcases execPop_next h with ⟨_, -, -, -, rfl⟩ | ⟨-, rfl⟩ | ⟨d, hd, hsp, rfl⟩
  · exact nomatch hr.symm.trans hf
  · exact nomatch hf
  · obtain rfl := regByte_injective hd
    exact hsp.imp_right fun ⟨_, hleft⟩ => Nat.succ_lt_succ hleft

theorem exec_ret_stackFault_iff :
    FaultsWith (exec .ret s) s (.stackFault .ret s.spVal) ↔ 255 < s.spVal ∨ 255 < s.spVal + 1 := by
  refine ⟨?_, fun hsp => conclude_popSlot_faultsWith (fun a _ => a + 1) hsp _⟩
  rintro ⟨t, h, hf, -⟩
  rcases execRet_next h with ⟨-, rfl⟩ | ⟨hsp, rfl⟩
  · exact nomatch hr.symm.trans hf
  · exact .inr (Nat.succ_lt_succ hsp)

end

/-- Settles O37: of the outcomes of each instruction only the check of `SP` leaves a `StackFault`. -/
theorem stackFaultExactly : Obligations.StackFaultExactly := by
  intro s i hr
  have hslot : s.spVal = 0 ∨ 256 < s.spVal ↔ s.spVal = 0 ∨ 255 < s.spVal - 1 := by omega
  exact ⟨(exec_push_stackFault_iff hr).trans hslot, (exec_call_stackFault_iff hr).trans hslot,
    exec_pop_stackFault_iff hr, exec_ret_stackFault_iff hr⟩

/-! PUSH then POP. -/

/-- A PUSH that completes leaves `SP` one lower, exactly (R83). -/
theorem execPush_spVal {s t : State} {r : Byte} (hr : t.run = .running)
    (h : execPush r s = .next t) : t.spVal = s.spVal - 1 ∧ 1 ≤ s.spVal := by
  rcases execPush_next h with ⟨_, -, hlo, hhi, -, rfl⟩ | ⟨-, rfl⟩ | ⟨-, -, rfl⟩ | ⟨_, -, -, -, -, -, rfl⟩
  · exact ⟨setSp_spVal (by omega), hlo⟩
  all_goals exact absurd hr (takeFault_run_ne_running _ _)

/-- Settles O38: PUSH leaves the value in the byte at the new `SP`, which POP reads, and POP's increment
undoes PUSH's decrement. -/
theorem pushPopRoundTrip : Obligations.PushPopRoundTrip := by
  intro s t i j hw _ hi hj hsp hpush hr
  obtain ⟨htsp, hlo⟩ := execPush_spVal hr hpush
  have hback : t.spVal + 1 = s.spVal := by omega
  have hbyte : (t.byteAt t.spVal).toNat = s.regVal i := by
    rw [htsp, execPush_byteAt hw hr hpush]
    exact if_neg hi
  obtain ⟨-, hcomplete⟩ := (popRule t (regByte j)).2 j rfl
  rw [if_neg hj, hback] at hcomplete
  obtain ⟨u, hpop, hreg, husp, -, -, -, -, -, -, hrun, -⟩ := hcomplete (by omega) hsp
  exact ⟨u, hpop, (hreg hj).trans hbyte, husp, hrun.trans hr⟩

end Sys2Proof.Machine
end

section
/-! Control flow (44_control_flow.md): CALL (R86), RET (R87), HLT (R88) and the call/return law (R90).
CALL and RET take their faults from the checks they share with PUSH and POP; past the checks, each is one
equation for the state it leaves. -/

namespace Sys2Proof.Machine

/-! CALL. -/

/-- After a fetch the return address is a byte, so that past the slot check CALL cannot fail (R86). -/
theorem exec_call_completes {s : State} {i : Fin 8} (hp : s.pcVal ≤ 253) (hlo : 1 ≤ s.spVal)
    (hhi : s.spVal ≤ 256) :
    exec (.call (regByte i)) s = .next (((s.setSp (s.spVal - 1)).setByte (s.spVal - 1)
      (BitVec.ofNat 8 (s.pcVal + 2))).setPc (s.regValAfterSp (s.spVal - 1) i)) := by
  refine (conclude_regOperand_regByte s i _).trans ?_
  rw [pushSlot_eq_ok.mpr ⟨hlo, hhi, rfl⟩, ok_bind, memWrite_eq_ok.mpr ⟨by omega, by omega, rfl⟩]
  rfl

/-- A register read after the decrement of `SP` fits in `pc`: CALL narrows no target (R86, R89). -/
theorem regValAfterSp_mod {s : State} {sp : Nat} (hsp : sp ≤ 255) (i : Fin 8) :
    s.regValAfterSp sp i % 2 ^ s.cfg.W = s.regValAfterSp sp i := by
  unfold State.regValAfterSp
  split
  · exact mod_width_of_lt s.cfg sp (by omega)
  · exact regVal_mod s i

/-- Settles O39: the register check and the slot check give the faults; past them, one register write,
one store and a jump. -/
theorem callRule : Obligations.CallRule := by
  intro s r hp
  refine ⟨fun hr => conclude_regOperand_faultsWith s hr _, ?_⟩
  rintro i rfl
  refine ⟨fun hsp => conclude_pushSlot_faultsWith i hsp _, fun hlo hhi => ?_⟩
  exact ⟨_, exec_call_completes hp hlo hhi, pushSlot_eq_ok.mpr ⟨hlo, hhi, rfl⟩,
    setSp_spVal (by omega), (setPc_pcVal _ _).trans (regValAfterSp_mod (by omega) i),
    fun hw => setByte_byteAt_toNat (s := s.setSp _) hw (by omega),
    fun a ha => by
      obtain ⟨-, -, rfl⟩ := pushSlot_eq_ok.mp ha
      exact setSp_setByte_sameMemoryExcept s _ _,
    setReg_sameRegsExcept s _ _, rfl, rfl, rfl, rfl, rfl, rfl, rfl, rfl⟩

/-! RET. -/

theorem exec_ret_completes {s : State} (hleft : s.spVal + 1 ≤ 255) :
    exec .ret s = .next ((s.setSp (s.spVal + 1)).setPc (s.byteAt s.spVal).toNat) := by
  have hread : s.spVal ≤ 255 := Nat.le_of_succ_le hleft
  show conclude s _ = _
  rw [popSlot_eq_ok.mpr ⟨hread, rfl⟩, ok_bind, memRead_eq_ok.mpr ⟨hread, rfl⟩, ok_bind,
    checkSp_eq_ok.mpr ⟨hleft, rfl⟩]
  rfl

/-- Settles O40: the two checks of `SP` give the fault; past them, one register write and a jump to the
byte read. -/
theorem retRule : Obligations.RetRule := by
  intro s
  refine ⟨fun hsp => conclude_popSlot_faultsWith (fun a _ => a + 1) hsp _, fun hleft => ?_⟩
  exact ⟨_, exec_ret_completes hleft, (setPc_pcVal _ _).trans (byte_mod_width s.cfg _),
    setSp_spVal (hleft.trans (by decide)), setReg_sameRegsExcept s _ _,
    rfl, fun _ => rfl, rfl, rfl, rfl, rfl, rfl, rfl, rfl⟩

/-! HLT. -/

/-- Settles O41: HLT writes `run` alone. -/
theorem hltRule : Obligations.HltRule := fun s =>
  ⟨s.halt, rfl, halt_run s, ⟨rfl, fun _ _ => rfl, rfl, rfl, rfl, rfl⟩, fun _ => rfl, rfl, rfl, rfl,
    rfl⟩

/-! CALL then RET. -/

/-- A CALL that completes started from an `SP` of 1 to 256 (R85, R86). -/
theorem execCall_spVal_bounds {s t : State} {r : Byte} (hr : t.run = .running)
    (h : execCall r s = .next t) : 1 ≤ s.spVal ∧ s.spVal ≤ 256 := by
  rcases execCall_next h with ⟨_, -, hlo, hhi, -, rfl⟩ | ⟨-, rfl⟩ | ⟨-, -, rfl⟩ | ⟨-, rfl⟩
  · exact ⟨hlo, hhi⟩
  all_goals exact absurd hr (takeFault_run_ne_running _ _)

/-- Settles O42: CALL leaves the return address in the byte at the new `SP`, which RET reads, and RET's
increment undoes CALL's decrement. -/
theorem callReturnLaw : Obligations.CallReturnLaw := by
  intro s t u i hw _ hp hsp hcall hr husp hubyte
  obtain ⟨hlo, hhi⟩ := execCall_spVal_bounds hr hcall
  obtain ⟨t', hcall', -, htsp, htpc, hstore, -⟩ := ((callRule s (regByte i) hp).2 i rfl).2 hlo hhi
  obtain rfl : t = t' := Host.Outcome.next.inj (hcall.symm.trans hcall')
  have hback : u.spVal + 1 = s.spVal := by omega
  have hbyte : (u.byteAt u.spVal).toNat = s.pcVal + 2 := by
    rw [hubyte, htsp]
    exact hstore hw
  obtain ⟨v, hret, hvpc, hvsp, -⟩ := (retRule u).2 (hback.trans_le hsp)
  exact ⟨fun hi => htpc.trans (if_neg hi), v, hret, hvpc.trans hbyte, hvsp.trans hback⟩

end Sys2Proof.Machine
end

section
/-! Faults and boot (60_exceptions.md, R109): the priority list of R102 against the cycle, the unknown
opcode (R92), the unreachable ALU error (R97) and the errors before the block starts (R98). What the list
says of a decoded slot is first stated per instruction (`instrFault`); then the list is shown to say it,
and each handler to answer it. -/

namespace Sys2Proof.Machine

/-! The list, read per instruction. -/

/-- The fault of R102 (5) to (9) that one instruction meets first, of those conditions that speak of it. -/
def instrFault (s : State) : Instr → Option FaultCause
  | .ldi r _ | .prn r => if 7 < r.toNat then some (badReg r) else none
  | .mul a b | .add a b | .cmp a b =>
    if 7 < a.toNat then some (badReg a) else if 7 < b.toNat then some (badReg b) else none
  | .push r =>
    if 7 < r.toNat then some (badReg r)
    else if s.spVal = 0 ∨ 255 < s.spVal - 1 then some (.stackFault .push s.spVal)
    else if r ≠ 7 ∧ 255 < s.regNamedBy r then some (.valueOutOfRange (s.regNamedBy r))
    else none
  | .pop r =>
    if 7 < r.toNat then some (badReg r)
    else if 255 < s.spVal then some (.stackFault .pop s.spVal)
    else if 255 < (if r = 7 then (s.byteAt s.spVal).toNat else s.spVal) + 1 then
      some (.stackFault .pop s.spVal)
    else none
  | .call r =>
    if 7 < r.toNat then some (badReg r)
    else if s.spVal = 0 ∨ 255 < s.spVal - 1 then some (.stackFault .call s.spVal)
    else none
  | .ret =>
    if 255 < s.spVal then some (.stackFault .ret s.spVal)
    else if 255 < s.spVal + 1 then some (.stackFault .ret s.spVal)
    else none
  | .hlt => none

/-- Of a slot that leaves memory the list names the first address outside (R102 (1) to (3)). -/
theorem priorityFault_of_slot_outside {s : State} (hp : 253 < s.pcVal) :
    priorityFault s = some (.addressOutOfRange .memory (if 255 < s.pcVal then s.pcVal else 256)) := by
  unfold priorityFault
  by_cases hop : 255 < s.pcVal
  · simp only [if_pos hop]
  by_cases hopA : 255 < s.pcVal + 1
  · simp only [if_neg hop, if_pos hopA]
    rw [show s.pcVal + 1 = 256 by omega]
  · have hopB : 255 < s.pcVal + 2 := by omega
    simp only [if_neg hop, if_neg hopA, if_pos hopB]
    rw [show s.pcVal + 2 = 256 by omega]

/-- Of a slot in memory whose first byte is no opcode the list names that byte (R102 (4)). -/
theorem priorityFault_of_not_isOpcode {s : State} (hp : s.pcVal ≤ 253)
    (ho : isOpcode (s.byteAt s.pcVal) = false) :
    priorityFault s = some (.unknownOpcode (s.byteAt s.pcVal) s.pcVal) := by
  unfold priorityFault
  simp only [if_neg (show ¬ 255 < s.pcVal by omega), if_neg (show ¬ 255 < s.pcVal + 1 by omega),
    if_neg (show ¬ 255 < s.pcVal + 2 by omega), if_pos ho]

/-- Of a slot that decodes the list says what its instruction's conditions say (R102 (5) to (9)). -/
theorem priorityFault_of_decodeSlot {s : State} {i : Instr} (hp : s.pcVal ≤ 253)
    (hd : decodeSlot (s.byteAt s.pcVal) (s.byteAt (s.pcVal + 1)) (s.byteAt (s.pcVal + 2)) = .ok i) :
    priorityFault s = instrFault s i := by
  have ho : ¬ isOpcode (s.byteAt s.pcVal) = false := by
    rw [exists_decodeSlot_eq_ok.mp ⟨i, hd⟩]; decide
  unfold priorityFault
  simp only [if_neg (show ¬ 255 < s.pcVal by omega), if_neg (show ¬ 255 < s.pcVal + 1 by omega),
    if_neg (show ¬ 255 < s.pcVal + 2 by omega), if_neg ho]
  rcases decodeSlot_cases hd with ⟨hop, rfl⟩ | ⟨hop, rfl⟩ | ⟨hop, rfl⟩ | ⟨hop, rfl⟩ | ⟨hop, rfl⟩ |
    ⟨hop, rfl⟩ | ⟨hop, rfl⟩ | ⟨hop, rfl⟩ | ⟨hop, rfl⟩ | ⟨hop, rfl⟩ <;> simp [hop, instrFault]

/-! The handlers' answers. -/

/-- The outcome is what a list of fault conditions asks for: the fault it gives, or a completion. -/
def AnswersFault (o : Host.Outcome State Fault Refusal) (s : State) : Option FaultCause → Prop
  | some c => FaultsWith o s c
  | none => ∃ t, o = .next t ∧ (t.run = .running ∨ t.run = .halted)

/-- An outcome that answers a list's result tells which result it was (R102). -/
theorem AnswersFault.iff {o : Host.Outcome State Fault Refusal} {s : State} {r : Option FaultCause}
    (h : AnswersFault o s r) :
    (∀ c, FaultsWith o s c ↔ r = some c) ∧
      (r = none ↔ ∃ t, o = .next t ∧ (t.run = .running ∨ t.run = .halted)) := by
  cases r with
  | none =>
    obtain ⟨t, rfl, hrun⟩ := h
    refine ⟨fun c => ⟨?_, nofun⟩, fun _ => ⟨t, rfl, hrun⟩, fun _ => rfl⟩
    rintro ⟨u, hu, hf, -⟩
    cases hu
    rw [hf] at hrun
    exact hrun.elim nofun nofun
  | some c' =>
    obtain ⟨t, rfl, hf, hsame⟩ := h
    refine ⟨fun c => ⟨?_, ?_⟩, nofun, ?_⟩
    · rintro ⟨u, hu, hf', -⟩
      cases hu
      cases hf.symm.trans hf'
      rfl
    · rintro ⟨⟩
      exact ⟨t, rfl, hf, hsame⟩
    · rintro ⟨u, hu, hrun⟩
      cases hu
      rw [hf] at hrun
      exact hrun.elim nofun nofun

/-- A condition at the front of a list, and the check it stands for. -/
theorem answersFault_ite {o : Host.Outcome State Fault Refusal} {s : State} {p : Prop} [Decidable p]
    {c : FaultCause} {r : Option FaultCause} (hfault : p → FaultsWith o s c)
    (hrest : ¬ p → AnswersFault o s r) : AnswersFault o s (if p then some c else r) := by
  split
  · next h => exact hfault h
  · next h => exact hrest h

theorem exists_eq_regByte {r : Byte} (hr : ¬ 7 < r.toNat) : ∃ i, r = regByte i :=
  ⟨⟨r.toNat, by omega⟩, regOperand_eq_ok.mp (dif_pos (by omega))⟩

/-- `R7` is named by the byte 7 alone (R50). -/
theorem regByte_eq_seven_iff {i : Fin 8} : regByte i = 7 ↔ i = 7 :=
  ⟨fun h => regByte_injective (j := 7) h, fun h => h ▸ rfl⟩

/-- A handler that checks a register operand first answers the list that begins with that check (R50). -/
theorem answersFault_regOperand {s : State} {b : Byte} {f : Fin 8 → Except FaultCause State}
    {r : Option FaultCause}
    (hrest : ∀ i, b = regByte i → AnswersFault (conclude s (regOperand b >>= f)) s r) :
    AnswersFault (conclude s (regOperand b >>= f)) s
      (if 7 < b.toNat then some (badReg b) else r) :=
  answersFault_ite (fun hb => conclude_regOperand_faultsWith s hb f) fun hb =>
    (exists_eq_regByte hb).elim hrest

section
variable {s : State} (hr : s.run = .running)
include hr

/-- The handler of MUL, ADD and CMP checks `opA`, then `opB`, and nothing else (R69). -/
theorem answersFault_aluInstr {op : AluOp} (a b : Byte)
    (hop : ∀ u v : Word s.cfg.W, ∃ e, alu op u v = .ok e) :
    AnswersFault (conclude s (aluInstr op a b s)) s
      (if 7 < a.toNat then some (badReg a) else if 7 < b.toNat then some (badReg b) else none) := by
  obtain ⟨hbadA, hbadB⟩ := conclude_aluInstr_faultsWith s a b hop
  refine answersFault_ite hbadA fun ha => answersFault_ite (hbadB (Nat.le_of_not_lt ha)) fun hb => ?_
  obtain ⟨i, rfl⟩ := exists_eq_regByte ha
  obtain ⟨j, rfl⟩ := exists_eq_regByte hb
  obtain ⟨e, he⟩ := hop (s.x.get i) (s.x.get j)
  refine ⟨_, conclude_aluInstr_regByte he, .inl ?_⟩
  cases e <;> exact hr

/-- PUSH checks its register, its slot and the value it stores, in this order (R83, R102). -/
theorem exec_push_answersFault (r : Byte) :
    AnswersFault (exec (.push r) s) s (instrFault s (.push r)) := by
  refine answersFault_regOperand fun i hi => ?_
  subst hi
  simp only [regNamedBy_regByte, ne_eq, regByte_eq_seven_iff]
  refine answersFault_ite (fun hsp => conclude_pushSlot_faultsWith i (by omega) _) fun hsp =>
    answersFault_ite (fun hval => ?_) fun hval => ?_
  · exact faultsWith_of_eq (exec_push_valueFault (by omega) (by omega) hval.1 hval.2)
  · have hbyte : s.regValAfterSp (s.spVal - 1) i ≤ 255 :=
      regValAfterSp_le (by omega) fun hi => Nat.le_of_not_lt fun hgt => hval ⟨hi, hgt⟩
    exact ⟨_, exec_push_completes (by omega) (by omega) hbyte, .inl hr⟩

/-- POP checks its register, the `SP` it reads at and the `SP` it leaves, in this order (R84, R102). -/
theorem exec_pop_answersFault (r : Byte) :
    AnswersFault (exec (.pop r) s) s (instrFault s (.pop r)) := by
  refine answersFault_regOperand fun d hd => ?_
  subst hd
  simp only [regByte_eq_seven_iff]
  exact answersFault_ite (fun hread => exec_pop_stackFault (.inl hread)) fun hread =>
    answersFault_ite (fun hleft => exec_pop_stackFault (.inr hleft)) fun hleft =>
      ⟨_, exec_pop_completes (Nat.le_of_not_lt hread) (Nat.le_of_not_lt hleft), .inl hr⟩

/-- CALL checks its register and its slot; after a fetch the return address is a byte (R86, R102). -/
theorem exec_call_answersFault (hp : s.pcVal ≤ 253) (r : Byte) :
    AnswersFault (exec (.call r) s) s (instrFault s (.call r)) := by
  refine answersFault_regOperand fun i hi => ?_
  subst hi
  exact answersFault_ite (fun hsp => conclude_pushSlot_faultsWith i (by omega) _) fun hsp =>
    ⟨_, exec_call_completes hp (by omega) (by omega), .inl hr⟩

/-- RET checks the `SP` it reads at and the `SP` it leaves (R87, R102). -/
theorem exec_ret_answersFault : AnswersFault (exec .ret s) s (instrFault s .ret) :=
  answersFault_ite (fun hread => conclude_popSlot_faultsWith (fun a _ => a + 1) (.inl hread) _)
    fun _ => answersFault_ite
      (fun hleft => conclude_popSlot_faultsWith (fun a _ => a + 1) (.inr hleft) _)
      fun hleft => ⟨_, exec_ret_completes (Nat.le_of_not_lt hleft), .inl hr⟩

/-- Every meaning run on a fetched slot answers the conditions of its instruction. -/
theorem exec_answersFault (hp : s.pcVal ≤ 253) (i : Instr) :
    AnswersFault (exec i s) s (instrFault s i) := by
  cases i with
  | ldi r imm =>
    exact answersFault_regOperand fun d hd => hd ▸ ⟨_, exec_ldi_regByte s d imm, .inl hr⟩
  | prn r => exact answersFault_regOperand fun i hi => hi ▸ ⟨_, exec_prn_regByte s i, .inl hr⟩
  | mul a b => exact answersFault_aluInstr hr a b fun _ _ => ⟨_, rfl⟩
  | add a b => exact answersFault_aluInstr hr a b fun _ _ => ⟨_, rfl⟩
  | cmp a b => exact answersFault_aluInstr hr a b fun _ _ => ⟨_, rfl⟩
  | push r => exact exec_push_answersFault hr r
  | pop r => exact exec_pop_answersFault hr r
  | call r => exact exec_call_answersFault hr hp r
  | ret => exact exec_ret_answersFault hr
  | hlt => exact ⟨s.halt, rfl, .inr rfl⟩

end

/-- Latching the slot touches nothing that a fault entry or a completion speaks of (R68). -/
theorem answersFault_of_latch {o : Host.Outcome State Fault Refusal} {s : State} {u v w : Byte}
    {r : Option FaultCause} (h : AnswersFault o (s.latch u v w) r) : AnswersFault o s r := by
  cases r with
  | none => exact h
  | some c => exact h

/-- A running cycle answers the priority list (R102): at the fetch, at dispatch or in the handler. -/
theorem step_answersFault {s : State} (hr : s.run = .running) :
    AnswersFault (step s) s (priorityFault s) := by
  by_cases hp : 253 < s.pcVal
  · rw [priorityFault_of_slot_outside hp]
    exact faultsWith_of_eq (step_slot_fault hr hp)
  have hp : s.pcVal ≤ 253 := Nat.le_of_not_lt hp
  cases ho : isOpcode (s.byteAt s.pcVal) with
  | false =>
    rw [priorityFault_of_not_isOpcode hp ho]
    exact faultsWith_of_eq_latch (step_unknown hr hp ho)
  | true =>
    obtain ⟨i, hd⟩ := decodeSlot_of_isOpcode (s.byteAt (s.pcVal + 1)) (s.byteAt (s.pcVal + 2)) ho
    rw [priorityFault_of_decodeSlot hp hd, step_decoded hr hp hd]
    exact answersFault_of_latch (exec_answersFault (s := s.fetched) hr hp i)

/-- Settles O7: the cycle answers the list's result, and an outcome answers one result only. -/
theorem faultsFollowPriorityList : Obligations.FaultsFollowPriorityList :=
  fun _ hr => (step_answersFault hr).iff

/-! Single faults. -/

/-- Settles O10: stopped, faulting or executing, a cycle answers a next state. -/
theorem everyStepAnswersNext : Obligations.EveryStepAnswersNext := step_answers_next

/-- Settles O11: a fault record that a cycle leaves is true, and `UnsupportedALUOperation` is true of no
state. -/
theorem aluErrorUnreachable : Obligations.AluErrorUnreachable := by
  intro s t f hr h hf halu
  have hs : FaultTruthful s := fun g hg => nomatch hr.symm.trans hg
  have hholds := (step_faultTruthful hs h f hf).2
  rw [halu] at hholds
  exact hholds

/-- Settles O3: the bytes outside the ten are those that dispatch refuses. -/
theorem unknownOpcodeFaults : Obligations.UnknownOpcodeFaults := fun _ hr hp hop =>
  faultsWith_of_eq_latch (step_unknown hr hp (isOpcode_eq_false_iff.mpr hop))

/-! Boot. -/

/-- With an image text, boot is the load followed by the reset state on what it read (R98, R109). -/
theorem boot_some (cfg : Config) (text : List Char) :
    boot cfg (some text) = (loadImage text).map (State.resetWithImage cfg) := by
  simp only [boot]
  cases loadImage text <;> rfl

/-- Settles O17: both outcomes of the load decide the boot, and a load that succeeds is bounded. -/
theorem bootStartsWhatTheLoaderRead : Obligations.BootStartsWhatTheLoaderRead := by
  intro cfg text
  refine ⟨rfl, fun e he => ?_, fun image hload => ⟨(loadImage_eq_ok hload).2, ?_⟩⟩
  · rw [boot_some, he]; rfl
  · rw [boot_some, hload]; rfl

end Sys2Proof.Machine
end

section
/-! Reset (70_reset_and_hazards.md section 1, R107): what the reset state holds in its registers and, with
an image placed, in its memory (R45), and that it meets the invariant of the machine. -/

namespace Sys2Proof.Machine

/-! The parts of the reset state. -/

/-- Out of reset `SP` is the empty stack and every other register is 0 (R19). -/
theorem resetWithImage_regVal (cfg : Config) (image : List Byte) (i : Fin 8) :
    (State.resetWithImage cfg image).regVal i =
      if i = Config.spIndex then Config.emptyStack else 0 := by
  have hsp : Config.emptyStack % 2 ^ cfg.W = Config.emptyStack :=
    mod_width_of_lt cfg Config.emptyStack (by decide)
  match i with
  | 7 => exact (BitVec.toNat_ofNat ..).trans hsp
  | 0 | 1 | 2 | 3 | 4 | 5 | 6 => rfl

/-- Out of reset the image stands at its addresses and every other cell reads as unlisted (R45). -/
theorem resetWithImage_byteAt (cfg : Config) {image : List Byte} (h : image.length ≤ 256) (a : Nat) :
    (State.resetWithImage cfg image).byteAt a = image.getD a unlistedByte := by
  have htake : image.take Config.memoryCells = image := List.take_of_length_le h
  have hread := ofBytesFrom_read image 0 a (by omega)
  rw [Nat.zero_add] at hread
  rw [State.byteAt, State.resetWithImage, Memory.ofImage, htake, hread]

/-- The empty image leaves the memory that reset itself leaves. -/
theorem resetWithImage_nil : State.resetWithImage Config.reference [] = State.reset := rfl

/-- Settles O16: the registers and the memory by their lemmas, the rest as reset writes it. -/
theorem resetLeaves : Obligations.ResetLeaves := by
  intro cfg image h
  refine ⟨fun i hi => ?_, resetWithImage_regVal cfg image 7, rfl, rfl, rfl, rfl, fun a ha => ?_,
    fun a ha => ?_⟩
  · rw [resetWithImage_regVal, if_neg hi]
  · rw [resetWithImage_byteAt cfg h, List.getD_eq_getElem _ _ ha, List.getElem?_eq_getElem ha]
  · rw [resetWithImage_byteAt cfg h, List.getD_eq_default _ _ ha, unlistedByte]

/-! The invariant. -/

/-- Memory is canonical as the image is placed, `fl` is 0, and a running engine has no fault record. -/
theorem inv_resetWithImage (cfg : Config) (image : List Byte) :
    Inv (State.resetWithImage cfg image) :=
  ⟨ofImage_wf image, rfl, fun _ hf => nomatch hf⟩

/-- Settles O19: reset by itself is reset with the empty image. -/
theorem invHoldsAtReset : Obligations.InvHoldsAtReset :=
  ⟨resetWithImage_nil ▸ inv_resetWithImage Config.reference [], inv_resetWithImage⟩

end Sys2Proof.Machine
end
